-- ==== Sys2Proof/Word.lean ====
section
/-! DEFINITION. The two widths of the core (R5): an 8-bit cell or accumulator, and a 4-bit address, operand,
opcode or program counter. -/

namespace Sys2Proof

/-- A memory cell's contents, the accumulator's, or an instruction byte (R5). Bit 7 is the most significant (R7). -/
abbrev Byte := BitVec 8

/-- An address, an operand, an opcode number or a program counter value (R5). -/
abbrev Nibble := BitVec 4

end Sys2Proof
end

