-- ==== Sys2Proof/Config.lean ====
section
/-! DEFINITION. What the spec leaves to a named parameter of the model (R6, R34): the types of `OPC`, `SUB_CARRY`,
`PHASE_POLICY` and `UNDEF_POLICY`. The values the machine runs with are `Sys2Proof.defaultOpc` (Decode.lean) and
`Sys2Proof.Machine.chosen` (Machine/Flags.lean), where a later repair may mend them. The spec leaves no value of a
running machine open (R168), so there is no free value here. -/

namespace Sys2Proof

/-- The 11 defined instructions by name, without operand (R62, R64). The payload of `CYC` ranges over these (R25). -/
inductive Opcode where
  | nop | lda | add | sub | sta | ldi | jmp | jc | jz | out | hlt
deriving DecidableEq, Repr

/-- The defined opcodes in the order of the spec's table (R62). -/
def Opcode.all : List Opcode :=
  [.nop, .lda, .add, .sub, .sta, .ldi, .jmp, .jc, .jz, .out, .hlt]

/-- `SUB_CARRY` (R6, R103): how the 9-bit value of a subtraction is formed. -/
inductive SubCarry where
  /-- the 9-bit value is `a - b` kept to 9 bits: Carry means a borrow; the spec's default (D3) -/
  | borrow
  /-- the 9-bit value is `a` plus the one's complement of `b` plus 1 -/
  | notBorrow
  /-- the 9-bit value is `a` plus the 8-bit negation of `b` -/
  | negAdd
deriving DecidableEq, Repr

/-- `PHASE_POLICY` (R6, R89, R90): the phases an instruction that has finished its work still passes. -/
inductive PhasePolicy where
  /-- all three execute phases, HLT alone leaving early; the spec's default (D4) -/
  | uniform5
  /-- back to LatchPC as soon as the work is done (R90) -/
  | earlyExit
deriving DecidableEq, Repr

/-- `UNDEF_POLICY` (R6): what an undefined opcode nibble does. No other value is admitted. -/
inductive UndefPolicy where
  /-- raise `UndefinedOpcode` (R141) -/
  | fault
deriving DecidableEq, Repr

/-- The four open parameters of R6. `OPC` is raw data here; that it is injective is
`opcodeMapWellFormed` (WellFormed.lean). Parameters are no state (R34). -/
structure Config where
  opc : Opcode → Nibble
  subCarry : SubCarry
  phasePolicy : PhasePolicy
  undefPolicy : UndefPolicy

end Sys2Proof
end

