-- ==== Sys2Proof/Syntax.lean ====
section
/-! DEFINITION. The instructions: one constructor per row of spec/opcode_table.json, each with its operand nibble. -/

namespace Sys2Proof

/-- One instruction byte, read as opcode and operand `n` (R61). An operand is 4 bits wide, so it is in range by its
type (R49). NOP, OUT and HLT carry the nibble they ignore, because `CYC` carries it (R66). The last five are the
table's reserved rows: opcode values that select no instruction under the default `OPC` (R65, R133). -/
inductive Instr where
  | nop (n : Nibble)
  | lda (n : Nibble)
  | add (n : Nibble)
  | sub (n : Nibble)
  | sta (n : Nibble)
  | ldi (n : Nibble)
  | jmp (n : Nibble)
  | jc (n : Nibble)
  | jz (n : Nibble)
  | out (n : Nibble)
  | hlt (n : Nibble)
  | undef9 (n : Nibble)
  | undefA (n : Nibble)
  | undefB (n : Nibble)
  | undefC (n : Nibble)
  | undefD (n : Nibble)
deriving DecidableEq, Repr

end Sys2Proof
end

