-- ==== Sys2Proof/WellFormed.lean ====
section
/-! DEFINITION. The checks on what is given to the machine from outside: the opcode map, the program image and the
canonical form an assembler emits. An `Instr` needs no check of its own: its operand is a nibble, and every nibble is a
legal address, literal, target or ignored operand (R45, R49, R63, R66). -/

namespace Sys2Proof

/-- `OPC` is an injective map from the 11 mnemonics to 4-bit values (R6, R64). -/
def opcodeMapWellFormed (code : Opcode → Nibble) : Bool :=
  decide (Opcode.all.map code).Nodup

/-- A program image is exactly 16 bytes (R5, R54). -/
def imageWellFormed (bytes : List Byte) : Bool :=
  bytes.length == 16

/-- The encoding an assembler emits: `n = 0` where the operand is ignored (R66, R70). An instruction that fails this
check still decodes and runs like the canonical one; a reserved row is emitted by no assembler. -/
def Instr.canonical : Instr → Bool
  | .nop n | .out n | .hlt n => n == 0
  | .lda _ | .add _ | .sub _ | .sta _ | .ldi _ | .jmp _ | .jc _ | .jz _ => true
  | .undef9 _ | .undefA _ | .undefB _ | .undefC _ | .undefD _ => false

end Sys2Proof
end

