-- ==== Sys2Proof/Decode.lean ====
section
/-! DEFINITION. The decoder and the encoder. `decodeUnder` is R68 for any `OPC`; `decodeByte` is the table
spec/opcode_table.json, read with the default `OPC` of R64 (PRESUMED by the spec, log entry 1). -/

namespace Sys2Proof

/-- `b[7:4]` (R7, R61). -/
def highNibble (b : Byte) : Nibble := b.extractLsb' 4 4

/-- `b[3:0]` (R7, R61). -/
def lowNibble (b : Byte) : Nibble := b.extractLsb' 0 4

/-- `{op, n}`: `op` in the high nibble (R7, R70). -/
def joinNibbles (op n : Nibble) : Byte := op ++ n

/-- The default of the parameter `OPC` (R64, D1). -/
def defaultOpc : Opcode → Nibble
  | .nop => 0x0
  | .lda => 0x1
  | .add => 0x2
  | .sub => 0x3
  | .sta => 0x4
  | .ldi => 0x5
  | .jmp => 0x6
  | .jc => 0x7
  | .jz => 0x8
  | .out => 0xE
  | .hlt => 0xF

/-- What a byte decodes to (R68): one of the 11 instructions with its operand, or an invalid opcode nibble with the
low nibble beside it. -/
inductive Decoded where
  | instr (m : Opcode) (n : Nibble)
  | invalid (op n : Nibble)
deriving DecidableEq, Repr

/-- The mnemonic with `OPC(m) = op`, if there is one (R68). -/
def opcodeAt (opc : Opcode → Nibble) (op : Nibble) : Option Opcode :=
  Opcode.all.find? fun m => opc m == op

/-- The decoder as a total function on bytes, for any `OPC` (R68). -/
def decodeUnder (opc : Opcode → Nibble) (b : Byte) : Decoded :=
  match opcodeAt opc (highNibble b) with
  | some m => .instr m (lowNibble b)
  | none => .invalid (highNibble b) (lowNibble b)

/-- The encoding of `M k` for any `OPC`: the byte `{OPC(M), k}` (R70). -/
def encodeUnder (opc : Opcode → Nibble) (m : Opcode) (n : Nibble) : Byte :=
  joinNibbles (opc m) n

/-- The row of the table a byte belongs to: bits 7 to 4 pick it, every value picking one (R61, R64, R65). -/
def decodeByte (b : Byte) : Instr :=
  let n := lowNibble b
  match b.getLsbD 7, b.getLsbD 6, b.getLsbD 5, b.getLsbD 4 with
  | false, false, false, false => .nop n
  | false, false, false, true => .lda n
  | false, false, true, false => .add n
  | false, false, true, true => .sub n
  | false, true, false, false => .sta n
  | false, true, false, true => .ldi n
  | false, true, true, false => .jmp n
  | false, true, true, true => .jc n
  | true, false, false, false => .jz n
  | true, false, false, true => .undef9 n
  | true, false, true, false => .undefA n
  | true, false, true, true => .undefB n
  | true, true, false, false => .undefC n
  | true, true, false, true => .undefD n
  | true, true, true, false => .out n
  | true, true, true, true => .hlt n

/-- Why a list of bytes holds no instruction. -/
inductive DecodeError where
  /-- there is no byte to decode; every byte is some row of the table -/
  | noByte
deriving DecidableEq, Repr

/-- One instruction from the front of a list of bytes, and the rest: every instruction is one byte (R60). -/
def decode : List Byte → Except DecodeError (Instr × List Byte)
  | [] => .error .noByte
  | b :: rest => .ok (decodeByte b, rest)

/-- A row's opcode nibble (R64, R65). -/
def Instr.opcodeNibble : Instr → Nibble
  | .nop _ => 0x0
  | .lda _ => 0x1
  | .add _ => 0x2
  | .sub _ => 0x3
  | .sta _ => 0x4
  | .ldi _ => 0x5
  | .jmp _ => 0x6
  | .jc _ => 0x7
  | .jz _ => 0x8
  | .undef9 _ => 0x9
  | .undefA _ => 0xA
  | .undefB _ => 0xB
  | .undefC _ => 0xC
  | .undefD _ => 0xD
  | .out _ => 0xE
  | .hlt _ => 0xF

/-- The operand nibble of an instruction byte (R61). -/
def Instr.operand : Instr → Nibble
  | .nop n | .lda n | .add n | .sub n | .sta n | .ldi n | .jmp n | .jc n | .jz n | .out n | .hlt n => n
  | .undef9 n | .undefA n | .undefB n | .undefC n | .undefD n => n

/-- The one byte of an instruction: `{op, n}` (R61, R64, R70). -/
def encode (i : Instr) : Byte := joinNibbles i.opcodeNibble i.operand

/-- What the spec's decoder (R68) calls a row: a defined instruction, or invalid. -/
def Instr.decoded : Instr → Decoded
  | .nop n => .instr .nop n
  | .lda n => .instr .lda n
  | .add n => .instr .add n
  | .sub n => .instr .sub n
  | .sta n => .instr .sta n
  | .ldi n => .instr .ldi n
  | .jmp n => .instr .jmp n
  | .jc n => .instr .jc n
  | .jz n => .instr .jz n
  | .out n => .instr .out n
  | .hlt n => .instr .hlt n
  | .undef9 n => .invalid 0x9 n
  | .undefA n => .invalid 0xA n
  | .undefB n => .invalid 0xB n
  | .undefC n => .invalid 0xC n
  | .undefD n => .invalid 0xD n

/-- A defined opcode with an operand, as an instruction: what `CYC` holds from Execute-1 on (R25). -/
def Opcode.toInstr : Opcode → Nibble → Instr
  | .nop, n => .nop n
  | .lda, n => .lda n
  | .add, n => .add n
  | .sub, n => .sub n
  | .sta, n => .sta n
  | .ldi, n => .ldi n
  | .jmp, n => .jmp n
  | .jc, n => .jc n
  | .jz, n => .jz n
  | .out, n => .out n
  | .hlt, n => .hlt n

/-- `count` bytes of the number `w`, least significant first, from byte number `k` on. -/
def bytesOfNat (w : Nat) : Nat → Nat → List Byte
  | 0, _ => []
  | count + 1, k => BitVec.ofNat 8 (w / 256 ^ k) :: bytesOfNat w count (k + 1)

/-- The bytes of an instruction given as the opcode table numbers its bits: the low `nbits` bits of `w`, bit 0 the
least significant of the first byte, every bit above them 0, and never less than one whole instruction. -/
def tableBytes (nbits w : Nat) : List Byte :=
  bytesOfNat (w % 2 ^ nbits) (max 1 ((nbits + 7) / 8)) 0

/-- The instruction the decoder reads from a word of the opcode table; `none` where bytes are left over, since an
instruction never continues into the next byte (R60). -/
def decodeTableWord (nbits w : Nat) : Option Instr :=
  match decode (tableBytes nbits w) with
  | .ok (i, []) => some i
  | .ok (_, _ :: _) => none
  | .error _ => none

end Sys2Proof
end

