-- ==== Sys2Proof/Machine/State.lean ====
section
/-! DEFINITION. The machine's whole state (R20), as plain data; its reset (R30, R160); and the reasons an operation
on it can stop. -/

namespace Sys2Proof.Machine

/-- `MEM` (R21): the cells whose contents differ from what an unlisted cell reads as (`Memory.unlisted`), by rising
address. -/
abbrev Memory := List Host.Cell

/-- `FLAGS` (R24): at most one of Zero and Carry is set, by construction (R32, D19). -/
inductive Flags where
  | none
  | zero
  | carry
deriving DecidableEq, Repr

/-- `CYC`, the cycle state (R25). -/
inductive Cyc where
  /-- between instructions; the next transition snapshots `PC` -/
  | latchPC
  /-- the snapshot of `PC`, which the next transition reads -/
  | fetch (p : Nibble)
  /-- the decoded opcode and the raw operand -/
  | ex1 (op : Opcode) (n : Nibble)
  /-- the opcode and the memory address, or the operand passed through -/
  | ex2 (op : Opcode) (n : Nibble)
  /-- the opcode and the right operand of the ALU, or a value no rule reads (D8) -/
  | ex3 (op : Opcode) (w : Byte)
deriving DecidableEq, Repr

/-- The fault record `UndefinedOpcode(addr, byte)` (R27): the address fetched and the byte read there. -/
structure FaultRecord where
  addr : Nibble
  byte : Byte
deriving DecidableEq, Repr

/-- One machine instance (R20). `fresh` is the model's own (log entry 10): no `advance()` has been called and no image
loaded since construction (glossary of 00_scope.md), which is what `Load` asks (R54). -/
structure State where
  /-- `MEM`, 16 cells of 8 bits (R21) -/
  mem : Memory
  /-- `A`, the accumulator (R22) -/
  a : Byte
  /-- `PC`, the program counter (R23) -/
  pc : Nibble
  /-- `FLAGS` (R24) -/
  flags : Flags
  /-- `CYC` (R25) -/
  cyc : Cyc
  /-- `HALT`, the sticky halt latch (R26) -/
  halt : Bool
  /-- `FAULT`, the sticky fault latch (R27) -/
  fault : Option FaultRecord
  /-- `OUT`, the values emitted, oldest first (R28) -/
  out : List Byte
  /-- the machine is fresh: `Load` is admitted -/
  fresh : Bool
deriving DecidableEq, Repr

/-- The state after construction, which is the core's only reset (R30, R160). -/
def State.reset : State where
  mem := []
  a := 0
  pc := 0
  flags := .none
  cyc := .latchPC
  halt := false
  fault := none
  out := []
  fresh := true

/-- The core's two error conditions (R140). -/
inductive Fault where
  /-- Code 1. Raised by the host operation `Load` for a byte sequence of length `len ≠ 16`; the machine is left as it
  was (R142). Safe: the spec's own result. -/
  | imageLength (len : Nat)
  /-- Code 2. What `advance()` and `run()` return for a faulted machine (R80, R143). A step never answers it: the
  transition that raises it is a next state with `FAULT` set (log entry 4). Safe: the spec's own result. -/
  | undefinedOpcode (r : FaultRecord)
deriving DecidableEq, Repr

/-- Why the model gives an operation no meaning. -/
inductive Refusal where
  /-- An instruction without a meaning; raised by no arm of `exec`. Safe. -/
  | notModelled (mnemonic : String)
  /-- Raised by the meaning of a reserved row applied in an execute phase, where R133 says it has no behaviour "because
  it never gets there"; no step reaches it, since the payload of `CYC` is a defined opcode (R25). Safe (log entry 8). -/
  | noExecutePhase (mnemonic : String)
  /-- Raised by `Load` on a machine that is not fresh, which R54 gives no meaning. Safe (log entry 10). -/
  | loadNotFresh
deriving DecidableEq, Repr

end Sys2Proof.Machine
end

