-- ==== Sys2Proof/Machine/Flags.lean ====
section
/-! DEFINITION. The ALU and the flag unit (R100 to R104), and the parameter values the machine runs with (R6). -/

namespace Sys2Proof.Machine

/-- The parameters at the spec's defaults (R6): `OPC` of R64 (log entry 1), `SUB_CARRY = borrow` (log entry 2),
`PHASE_POLICY = uniform5` (log entry 3), `UNDEF_POLICY = fault`. DESIGN CHOICE of the spec (D1, D3, D4, D5). -/
def chosen : Config where
  opc := defaultOpc
  subCarry := .borrow
  phasePolicy := .uniform5
  undefPolicy := .fault

/-- The flag bit `Z` (R24). -/
def Flags.z (f : Flags) : Bool := f == .zero

/-- The flag bit `C` (R24). -/
def Flags.c (f : Flags) : Bool := f == .carry

/-- The flags from the 8-bit result and whether the 9-bit value is 256 or more; Zero has priority (R102). -/
def flagsOf (r : Byte) (wide : Bool) : Flags :=
  if r = 0 then .zero else if wide then .carry else .none

/-- `alu_add` (R101): the sum is computed exactly, then narrowed. -/
def aluAdd (a b : Byte) : Byte × Flags :=
  let s9 := a.toNat + b.toNat
  let r := BitVec.ofNat 8 (s9 % 256)
  (r, flagsOf r (decide (s9 ≥ 256)))

/-- Whether the 9-bit value of `a - b` is 256 or more, by each reading of it (R103). -/
def subWide (sc : SubCarry) (a b : Byte) : Bool :=
  match sc with
  | .borrow => decide (((a.toNat : Int) - b.toNat) % 512 ≥ 256)
  | .notBorrow => decide (a.toNat + (255 - b.toNat) + 1 ≥ 256)
  | .negAdd => decide (a.toNat + (256 - b.toNat) % 256 ≥ 256)

/-- `alu_sub` (R103): the result is the same under every `SUB_CARRY`. -/
def aluSub (sc : SubCarry) (a b : Byte) : Byte × Flags :=
  let r := BitVec.ofInt 8 (((a.toNat : Int) - b.toNat) % 256)
  (r, flagsOf r (subWide sc a b))

end Sys2Proof.Machine
end

