-- ==== Sys2Proof/Machine/Operands.lean ====
section
/-! DEFINITION. The roles of the operand nibble (R62, R63): it is used as it stands in every one of them. -/

namespace Sys2Proof.Machine

/-- The address decoder (R110): one addressing mode, direct and absolute, `ea = n`. -/
def effectiveAddress (n : Nibble) : Nibble := n

/-- A jump's target (R120): absolute, `target = n`. -/
def jumpTarget (n : Nibble) : Nibble := n

/-- `zext_8(n)` (R7, R63): LDI's literal, and the value passed through to Execute-3 (R25). -/
def zext8 (n : Nibble) : Byte := n.setWidth 8

/-- The address of the next sequential instruction: 0 follows 15 (R23, R60). -/
def nextAddress (p : Nibble) : Nibble := p + 1

end Sys2Proof.Machine
end

