-- ==== Sys2Proof/Machine/Ops.lean ====
section
/-! DEFINITION. The named operations over memory and state, the transitions every instruction shares (R82, R83, R84 to
R86), and taking the one exception the core has (R141). A fault transfers control nowhere, so there is no return from
one (R147, R148). -/

namespace Sys2Proof.Machine

/-- What an unlisted cell reads as: the reset contents of R30. -/
def Memory.unlisted : Byte := 0

/-- The byte at an address. -/
def Memory.lookup : Memory → Nat → Byte
  | [], _ => Memory.unlisted
  | (k, v) :: rest, addr => if k = addr then v else Memory.lookup rest addr

/-- An entry in front of `rest`, unless it says what an unlisted cell reads as. -/
def Memory.cons (addr : Nat) (v : Byte) (rest : Memory) : Memory :=
  if v = Memory.unlisted then rest else (addr, v) :: rest

/-- The memory with one cell replaced, in canonical form. -/
def Memory.insert : Memory → Nat → Byte → Memory
  | [], addr, v => Memory.cons addr v []
  | (k, w) :: rest, addr, v =>
    if addr < k then Memory.cons addr v ((k, w) :: rest)
    else if addr = k then Memory.cons addr v rest
    else (k, w) :: Memory.insert rest addr v

/-- The canonical form from address `lo` on: addresses rising, below 16, and no entry that says what an unlisted cell
reads as. -/
def Memory.wfFrom (lo : Nat) : Memory → Bool
  | [] => true
  | (k, v) :: rest =>
    decide (lo ≤ k) && decide (k < 16) && decide (v ≠ Memory.unlisted) && Memory.wfFrom (k + 1) rest

/-- The canonical form of `MEM`: equal memories are equal lists. -/
def Memory.wf (m : Memory) : Bool := Memory.wfFrom 0 m

/-- `MemRead(a, 1)` on the memory alone (R41). -/
def Memory.read (m : Memory) (addr : Nibble) : Byte := Memory.lookup m addr.toNat

/-- `MemWrite(a, 1, v)` on the memory alone (R42). -/
def Memory.write (m : Memory) (addr : Nibble) (v : Byte) : Memory := Memory.insert m addr.toNat v

/-- `MemRead(a, 1)` (R41). -/
def State.memRead (s : State) (addr : Nibble) : Byte := Memory.read s.mem addr

/-- `MemWrite(a, 1, v)` (R42). -/
def State.memWrite (s : State) (addr : Nibble) (v : Byte) : State := { s with mem := Memory.write s.mem addr v }

/-- `A <- v` (R22). -/
def State.setA (s : State) (v : Byte) : State := { s with a := v }

/-- `PC <- v` (R23). -/
def State.setPc (s : State) (v : Nibble) : State := { s with pc := v }

/-- `FLAGS <- f` (R24). -/
def State.setFlags (s : State) (f : Flags) : State := { s with flags := f }

/-- `CYC <- c` (R25). -/
def State.setCyc (s : State) (c : Cyc) : State := { s with cyc := c }

/-- `HALT <- 1` (R26). -/
def State.setHalt (s : State) : State := { s with halt := true }

/-- `Emit(v)` (R28): the sink always accepts (log entry 11). -/
def State.emit (s : State) (v : Byte) : State := { s with out := s.out ++ [v] }

/-- The machine has been advanced or loaded: it is fresh no longer. -/
def State.touch (s : State) : State := { s with fresh := false }

/-- `(r, f) <- …; A <- r; FLAGS <- f` (R86): how ADD and SUB write back. -/
def State.writeAlu (s : State) (rf : Byte × Flags) : State := (s.setA rf.1).setFlags rf.2

/-- `PC <- (PC + 1) mod 16`, made by every Fetch (R83). -/
def State.incPc (s : State) : State := s.setPc (nextAddress s.pc)

/-- `raise UndefinedOpcode(p, b)` (R8, R27): the record is latched and nothing else is written. -/
def State.raiseUndefinedOpcode (s : State) (p : Nibble) (b : Byte) : State := { s with fault := some ⟨p, b⟩ }

/-- Taking the exception: what a Fetch of an undefined opcode at `p` leaves. The increment has been made, `CYC` stays
`Fetch(p)`, and the record holds the address and the byte read there (R83, R141). -/
def State.takeUndefinedOpcode (s : State) (p : Nibble) : State :=
  s.incPc.raiseUndefinedOpcode p (s.memRead p)

/-- A state no `advance()` changes: `HALT = 1` or `FAULT ≠ none` (R33; glossary of 00_scope.md). -/
def State.terminal (s : State) : Bool := s.halt || s.fault.isSome

/-- The LatchPC transition: snapshot `PC` (R82). -/
def State.latchPC (s : State) : State := (s.setCyc (.fetch s.pc)).touch

/-- The Fetch transition of a defined opcode (R83). -/
def State.fetchDefined (s : State) (m : Opcode) (n : Nibble) : State := s.incPc.setCyc (.ex1 m n)

/-- The cycle state after an Execute-1 transition that does not halt (R84 under `uniform5`, R90 under `early_exit`). -/
def afterEx1 (pp : PhasePolicy) (m : Opcode) (n : Nibble) : Cyc :=
  match pp, m with
  | .uniform5, _ => .ex2 m n
  | .earlyExit, .nop | .earlyExit, .ldi | .earlyExit, .jmp | .earlyExit, .jc | .earlyExit, .jz
  | .earlyExit, .out => .latchPC
  | .earlyExit, .lda | .earlyExit, .add | .earlyExit, .sub | .earlyExit, .sta
  | .earlyExit, .hlt => .ex2 m n

/-- The cycle state after an Execute-2 transition (R85 under `uniform5`, R90 under `early_exit`). -/
def afterEx2 (pp : PhasePolicy) (m : Opcode) (w : Byte) : Cyc :=
  match pp, m with
  | .uniform5, _ => .ex3 m w
  | .earlyExit, .lda | .earlyExit, .sta => .latchPC
  | .earlyExit, .nop | .earlyExit, .ldi | .earlyExit, .jmp | .earlyExit, .jc | .earlyExit, .jz
  | .earlyExit, .out | .earlyExit, .add | .earlyExit, .sub | .earlyExit, .hlt => .ex3 m w

/-- One row of the phase table (R87): what an instruction does in its execute phases, `CYC` apart, and the value `w` its
Execute-2 hands on. Each entry sees the state before the transition (R8). -/
structure Phases where
  ex1 : State → State
  ex2 : State → State
  carry : State → Byte
  ex3 : Byte → State → State

/-- The row of an instruction that does nothing in its execute phases and passes its operand through (R84 to R86). -/
def idlePhases (n : Nibble) : Phases where
  ex1 := id
  ex2 := id
  carry := fun _ => zext8 n
  ex3 := fun _ s => s

/-- The transition of a defined instruction in the phase `CYC` names (R82 to R86): its own work in that phase, and the
cycle state that follows. Which instruction is in progress is the caller's to say; only the phase, and the value handed
on to Execute-3, is read from `CYC`. -/
def runPhases (c : Config) (m : Opcode) (n : Nibble) (p : Phases) (s : State) : State :=
  match s.cyc with
  | .latchPC => s.latchPC
  | .fetch _ => s.fetchDefined m n
  | .ex1 _ _ => (p.ex1 s).setCyc (afterEx1 c.phasePolicy m n)
  | .ex2 _ _ => (p.ex2 s).setCyc (afterEx2 c.phasePolicy m (p.carry s))
  | .ex3 _ w => (p.ex3 w s).setCyc .latchPC

/-- The transition of a reserved row in the phase `CYC` names: it raises its fault at Fetch and has no execute phase
(R133, R141). -/
def runReserved (mnemonic : String) (s : State) : Host.Outcome State Fault Refusal :=
  match s.cyc with
  | .latchPC => .next s.latchPC
  | .fetch p => .next (s.takeUndefinedOpcode p)
  | .ex1 _ _ | .ex2 _ _ | .ex3 _ _ => .refused (.noExecutePhase mnemonic)

end Sys2Proof.Machine
end

