-- ==== Sys2Proof/Machine/Arithmetic.lean ====
section
/-! DEFINITION. ADD and SUB (41_alu_flags.md): the byte is read in Execute-2, the ALU applied in Execute-3. -/

namespace Sys2Proof.Machine

/-- ADD for any parameters (R105). -/
def addTransition (c : Config) (n : Nibble) (s : State) : State :=
  runPhases c .add n
    { idlePhases n with
      carry := fun s => s.memRead (effectiveAddress n)
      ex3 := fun w s => s.writeAlu (aluAdd s.a w) } s

/-- ADD, add-from-address (R105). -/
def execAdd (n : Nibble) (s : State) : Host.Outcome State Fault Refusal := .next (addTransition chosen n s)

/-- SUB for any parameters (R106): the accumulator is the minuend. -/
def subTransition (c : Config) (n : Nibble) (s : State) : State :=
  runPhases c .sub n
    { idlePhases n with
      carry := fun s => s.memRead (effectiveAddress n)
      ex3 := fun w s => s.writeAlu (aluSub c.subCarry s.a w) } s

/-- SUB, subtract-from-address (R106). -/
def execSub (n : Nibble) (s : State) : Host.Outcome State Fault Refusal := .next (subTransition chosen n s)

end Sys2Proof.Machine
end

