-- ==== Sys2Proof/Machine/Jumps.lean ====
section
/-! DEFINITION. JMP, JC and JZ (43_jumps.md): a taken jump overwrites `PC` in Execute-1; one not taken does nothing. -/

namespace Sys2Proof.Machine

/-- JMP for any parameters (R121). -/
def jmpTransition (c : Config) (n : Nibble) (s : State) : State :=
  runPhases c .jmp n { idlePhases n with ex1 := fun s => s.setPc (jumpTarget n) } s

/-- JMP, jump (R121). -/
def execJmp (n : Nibble) (s : State) : Host.Outcome State Fault Refusal := .next (jmpTransition chosen n s)

/-- JC for any parameters (R122): the flag is read in Execute-1 and not cleared. -/
def jcTransition (c : Config) (n : Nibble) (s : State) : State :=
  runPhases c .jc n { idlePhases n with ex1 := fun s => if s.flags.c then s.setPc (jumpTarget n) else s } s

/-- JC, jump-if-carry (R122). -/
def execJc (n : Nibble) (s : State) : Host.Outcome State Fault Refusal := .next (jcTransition chosen n s)

/-- JZ for any parameters (R123): the flag is tested, not the accumulator. -/
def jzTransition (c : Config) (n : Nibble) (s : State) : State :=
  runPhases c .jz n { idlePhases n with ex1 := fun s => if s.flags.z then s.setPc (jumpTarget n) else s } s

/-- JZ, jump-if-zero (R123). -/
def execJz (n : Nibble) (s : State) : Host.Outcome State Fault Refusal := .next (jzTransition chosen n s)

end Sys2Proof.Machine
end

