-- ==== Sys2Proof/Machine/LoadStore.lean ====
section
/-! DEFINITION. LDA, STA and LDI (42_load_store.md). None of them writes a flag. -/

namespace Sys2Proof.Machine

/-- LDA for any parameters (R111): the accumulator is written in Execute-2. -/
def ldaTransition (c : Config) (n : Nibble) (s : State) : State :=
  runPhases c .lda n
    { idlePhases n with
      ex2 := fun s => s.setA (s.memRead (effectiveAddress n))
      carry := fun s => s.memRead (effectiveAddress n) } s

/-- LDA, load-from-address (R111). -/
def execLda (n : Nibble) (s : State) : Host.Outcome State Fault Refusal := .next (ldaTransition chosen n s)

/-- STA for any parameters (R112): the cell is written in Execute-2. -/
def staTransition (c : Config) (n : Nibble) (s : State) : State :=
  runPhases c .sta n { idlePhases n with ex2 := fun s => s.memWrite (effectiveAddress n) s.a } s

/-- STA, store-to-address (R112). -/
def execSta (n : Nibble) (s : State) : Host.Outcome State Fault Refusal := .next (staTransition chosen n s)

/-- LDI for any parameters (R113): the whole accumulator is written in Execute-1. -/
def ldiTransition (c : Config) (n : Nibble) (s : State) : State :=
  runPhases c .ldi n { idlePhases n with ex1 := fun s => s.setA (zext8 n) } s

/-- LDI, load-immediate (R113). -/
def execLdi (n : Nibble) (s : State) : Host.Outcome State Fault Refusal := .next (ldiTransition chosen n s)

end Sys2Proof.Machine
end

