-- ==== Sys2Proof/Machine/System.lean ====
section
/-! DEFINITION. NOP, OUT, HLT and the five reserved rows (44_system.md). The operand nibble is ignored by all of them
(R66, R133) and stands in `CYC` alone. -/

namespace Sys2Proof.Machine

/-- NOP for any parameters (R130). -/
def nopTransition (c : Config) (n : Nibble) (s : State) : State := runPhases c .nop n (idlePhases n) s

/-- NOP, no-op (R130). -/
def execNop (n : Nibble) (s : State) : Host.Outcome State Fault Refusal := .next (nopTransition chosen n s)

/-- OUT for any parameters (R131): the accumulator is emitted in Execute-1. -/
def outTransition (c : Config) (n : Nibble) (s : State) : State :=
  runPhases c .out n { idlePhases n with ex1 := fun s => s.emit s.a } s

/-- OUT, output (R131). -/
def execOut (n : Nibble) (s : State) : Host.Outcome State Fault Refusal := .next (outTransition chosen n s)

/-- HLT for any parameters (R132): Execute-1 sets the latch and leaves `CYC` as it is. "HLT never reaches" Execute-2
(R85); there, and in Execute-3, the machine does what R86 and the assembled function of 40_cycle_state_machine.md
section 6 write for every other opcode. DEDUCED, and reached by no run (log entry 7). -/
def hltTransition (c : Config) (n : Nibble) (s : State) : State :=
  match s.cyc with
  | .ex1 _ _ => s.setHalt
  | .latchPC | .fetch _ | .ex2 _ _ | .ex3 _ _ => runPhases c .hlt n (idlePhases n) s

/-- HLT, halt (R132). -/
def execHlt (n : Nibble) (s : State) : Host.Outcome State Fault Refusal := .next (hltTransition chosen n s)

/-- Opcode 0x9: undefined (R133, R141). -/
def execUndef9 (_n : Nibble) (s : State) : Host.Outcome State Fault Refusal := runReserved "UNDEF_9" s

/-- Opcode 0xA: undefined (R133, R141). -/
def execUndefA (_n : Nibble) (s : State) : Host.Outcome State Fault Refusal := runReserved "UNDEF_A" s

/-- Opcode 0xB: undefined (R133, R141). -/
def execUndefB (_n : Nibble) (s : State) : Host.Outcome State Fault Refusal := runReserved "UNDEF_B" s

/-- Opcode 0xC: undefined (R133, R141). -/
def execUndefC (_n : Nibble) (s : State) : Host.Outcome State Fault Refusal := runReserved "UNDEF_C" s

/-- Opcode 0xD: undefined (R133, R141). -/
def execUndefD (_n : Nibble) (s : State) : Host.Outcome State Fault Refusal := runReserved "UNDEF_D" s

end Sys2Proof.Machine
end

