-- ==== Sys2Proof/Machine/Dispatch.lean ====
section
/-! DEFINITION. One arm per instruction: the transition of instruction `i` in the phase the state's `CYC` names (R87). -/

namespace Sys2Proof.Machine

def exec (i : Instr) (s : State) : Host.Outcome State Fault Refusal :=
  match i with
  | .nop n => Sys2Proof.Machine.execNop n s
  | .lda n => Sys2Proof.Machine.execLda n s
  | .add n => Sys2Proof.Machine.execAdd n s
  | .sub n => Sys2Proof.Machine.execSub n s
  | .sta n => Sys2Proof.Machine.execSta n s
  | .ldi n => Sys2Proof.Machine.execLdi n s
  | .jmp n => Sys2Proof.Machine.execJmp n s
  | .jc n => Sys2Proof.Machine.execJc n s
  | .jz n => Sys2Proof.Machine.execJz n s
  | .out n => Sys2Proof.Machine.execOut n s
  | .hlt n => Sys2Proof.Machine.execHlt n s
  | .undef9 n => Sys2Proof.Machine.execUndef9 n s
  | .undefA n => Sys2Proof.Machine.execUndefA n s
  | .undefB n => Sys2Proof.Machine.execUndefB n s
  | .undefC n => Sys2Proof.Machine.execUndefC n s
  | .undefD n => Sys2Proof.Machine.execUndefD n s

end Sys2Proof.Machine
end

