-- ==== Sys2Proof/Machine/Fetch.lean ====
section
/-! DEFINITION. Which instruction is in progress, read from `CYC` and memory, and how a test places one. -/

namespace Sys2Proof.Machine

/-- The instruction the next transition belongs to. In LatchPC there is none yet; in Fetch it is what the byte at the
snapshot decodes to (R83); from Execute-1 on it is the payload of `CYC`, so a store to the instruction's own cell does
not change it (R53). Execute-3 carries no operand (R25), and no instruction reads one there: 0 stands for it
(log entry 9). -/
def State.current (s : State) : Option Instr :=
  match s.cyc with
  | .latchPC => none
  | .fetch p => some (decodeByte (s.memRead p))
  | .ex1 m n => some (m.toInstr n)
  | .ex2 m n => some (m.toInstr n)
  | .ex3 m _ => some (m.toInstr 0)

/-- The machine about to fetch the byte `b` as its next instruction: `b` stands at `PC`, `CYC` is `Fetch(PC)`, neither
latch is set, and the machine is not fresh (log entry 9). -/
def State.placeNext (s : State) (b : Byte) : State :=
  { (s.memWrite s.pc b) with cyc := .fetch s.pc, halt := false, fault := none, fresh := false }

end Sys2Proof.Machine
end

