-- ==== Sys2Proof/Machine/Step.lean ====
section
/-! DEFINITION. One step is one `advance()` call (R80): nothing on a terminal machine (R81, R33), else the transition
`CYC` selects. What the call returns is `State.result` (Machine/Advance.lean). -/

namespace Sys2Proof.Machine

/-- One `advance()` call (R80, R81). -/
def step (s : State) : Host.Outcome State Fault Refusal :=
  if s.terminal then .next s
  else
    match s.current with
    | none => .next s.latchPC
    | some i => exec i s

/-- `s` with one instruction of the opcode table placed where the very next step fetches it. -/
def State.withFetchWord (s : State) (nbits w : Nat) : State :=
  s.placeNext ((tableBytes nbits w).headD 0)

end Sys2Proof.Machine
end

