-- ==== Sys2Proof/Machine/Advance.lean ====
section
/-! DEFINITION. `advance()` as the spec assembles it, phase by phase, with the value it returns, for every value of the
parameters of R6 (R80 to R86, R90); the instruction as one step (R91); calls per instruction (R89, R90); and the driver
(R93). `Sys2Proof.Machine.step` is `advance` at the chosen parameters, read by instruction. -/

namespace Sys2Proof.Machine

/-- What `advance()` returns (R80, D6). -/
inductive Result where
  | running
  | halted
  | fault (f : Fault)
deriving DecidableEq, Repr

/-- What the call that left this state returned, and every later call does if it is terminal (R80, R81). -/
def State.result (s : State) : Result :=
  match s.fault with
  | some r => .fault (.undefinedOpcode r)
  | none => if s.halt then .halted else .running

/-- The transition of a defined instruction for any parameters, by mnemonic. -/
def transition (c : Config) (m : Opcode) (n : Nibble) (s : State) : State :=
  match m with
  | .nop => nopTransition c n s
  | .lda => ldaTransition c n s
  | .add => addTransition c n s
  | .sub => subTransition c n s
  | .sta => staTransition c n s
  | .ldi => ldiTransition c n s
  | .jmp => jmpTransition c n s
  | .jc => jcTransition c n s
  | .jz => jzTransition c n s
  | .out => outTransition c n s
  | .hlt => hltTransition c n s

/-- `advance()` (R81 to R86): exactly one transition, or none on a terminal machine. -/
def advance (c : Config) (s : State) : State × Result :=
  match s.fault with
  | some r => (s, .fault (.undefinedOpcode r))
  | none =>
    if s.halt then (s, .halted)
    else
      match s.cyc with
      | .latchPC => (s.latchPC, .running)
      | .fetch p =>
        match decodeUnder c.opc (s.memRead p) with
        | .instr m n => (s.fetchDefined m n, .running)
        | .invalid _ _ =>
          match c.undefPolicy with
          | .fault => (s.takeUndefinedOpcode p, .fault (.undefinedOpcode ⟨p, s.memRead p⟩))
      | .ex1 .hlt n => (transition c .hlt n s, .halted)
      | .ex1 m n => (transition c m n s, .running)
      | .ex2 m n => (transition c m n s, .running)
      | .ex3 m _ => (transition c m 0 s, .running)

/-- The state after `k` calls of `advance()`: a function of the starting state and `k` alone (R145, R168). -/
def advanceN (c : Config) : Nat → State → State
  | 0, s => s
  | k + 1, s => advanceN c k (advance c s).1

/-- The net effect of one instruction, every right-hand side evaluated in the starting state (R91). It is the spec's for
a machine with `CYC = LatchPC`; a terminal machine is left as it is (R33). This is also what the one-shot interpreter
must compute per instruction (R92). -/
def instrStep (c : Config) (s : State) : State :=
  if s.terminal then s
  else
    let p := s.pc
    let b := s.memRead p
    let q := nextAddress p
    let t := s.touch
    match decodeUnder c.opc b with
    | .invalid _ _ => { t with pc := q, fault := some ⟨p, b⟩, cyc := .fetch p }
    | .instr .nop _ => { t with pc := q }
    | .instr .lda n => { t with pc := q, a := s.memRead n }
    | .instr .add n => { t with pc := q, a := (aluAdd s.a (s.memRead n)).1, flags := (aluAdd s.a (s.memRead n)).2 }
    | .instr .sub n =>
      { t with pc := q, a := (aluSub c.subCarry s.a (s.memRead n)).1, flags := (aluSub c.subCarry s.a (s.memRead n)).2 }
    | .instr .sta n => { t with pc := q, mem := Memory.write s.mem n s.a }
    | .instr .ldi n => { t with pc := q, a := zext8 n }
    | .instr .jmp n => { t with pc := n }
    | .instr .jc n => { t with pc := if s.flags.c then n else q }
    | .instr .jz n => { t with pc := if s.flags.z then n else q }
    | .instr .out _ => { t with pc := q, out := s.out ++ [s.a] }
    | .instr .hlt n => { t with pc := q, halt := true, cyc := .ex1 .hlt n }

/-- The state after `k` instructions by R91. -/
def instrStepN (c : Config) : Nat → State → State
  | 0, s => s
  | k + 1, s => instrStepN c k (instrStep c s)

/-- `advance()` calls one instruction takes, from `CYC = LatchPC` to its return there, its halt or its fault, both calls
included (R89 under `uniform5`, R90 under `early_exit`). -/
def callsOf (pp : PhasePolicy) : Decoded → Nat
  | .invalid _ _ => 2
  | .instr m _ =>
    match pp, m with
    | _, .hlt => 3
    | .uniform5, _ => 5
    | .earlyExit, .nop | .earlyExit, .ldi | .earlyExit, .jmp | .earlyExit, .jc | .earlyExit, .jz
    | .earlyExit, .out => 3
    | .earlyExit, .lda | .earlyExit, .sta => 4
    | .earlyExit, .add | .earlyExit, .sub => 5

/-- How a run under fuel ended: the driver's two returns, or no return yet (R93, R167). -/
inductive RunEnd where
  | halted
  | fault (f : Fault)
  /-- the fuel is spent and the machine is running: neither a good end nor a fault (U5) -/
  | outOfFuel
deriving DecidableEq, Repr

/-- The execution driver: `advance()` until it returns something other than `running`, under fuel (R93, D17). -/
def run (c : Config) : Nat → State → State × RunEnd
  | 0, s => (s, .outOfFuel)
  | k + 1, s =>
    match advance c s with
    | (t, .halted) => (t, .halted)
    | (t, .fault f) => (t, .fault f)
    | (t, .running) => run c k t

end Sys2Proof.Machine
end

