-- ==== Sys2Proof/Machine/HostOps.lean ====
section
/-! DEFINITION. The host's operations on a machine beside `advance()` and `run()` (R171). `Reset()` is `State.reset`
(R160); `Read(s)` is the projection of the field read (R34). One operation at a time (R170). -/

namespace Sys2Proof.Machine

/-- `MEM[i] <- bytes[i]` from cell `i` on. -/
def Memory.fill : Memory → Nat → List Byte → Memory
  | m, _, [] => m
  | m, i, b :: rest => Memory.fill (Memory.insert m i b) (i + 1) rest

/-- `Load(bytes)` (R54): admitted on a fresh machine only (D9); a length other than 16 is `ImageLength` and changes
nothing (R142); else the image becomes the memory, verbatim, and nothing else changes but that the machine is fresh no
longer. -/
def load (bytes : List Byte) (s : State) : Host.Outcome State Fault Refusal :=
  if s.fresh then
    if imageWellFormed bytes then .next { s.touch with mem := Memory.fill s.mem 0 bytes }
    else .fault (.imageLength bytes.length)
  else .refused .loadNotFresh

/-- The boot sequence up to the first `advance()` (R162): `Reset()`, then one `Load`. -/
def boot (image : List Byte) : Host.Outcome State Fault Refusal := load image State.reset

end Sys2Proof.Machine
end

