-- ==== Sys2Proof/Safety.lean ====
section
/-! DEFINITION. What counts as a good end of a run (R169), which states a host can bring about (R162), and the invariant
those states satisfy. -/

namespace Sys2Proof.Machine

/-- A run that has ended well: `HALT = 1` and `FAULT = none` (R169). A fault is never a good end (R143). -/
def State.endedWell (s : State) : Bool := s.halt && s.fault.isNone

/-- An opcode nibble outside the image of `OPC` (R65). -/
def undefinedByte (b : Byte) : Bool :=
  match decodeUnder chosen.opc b with
  | .instr _ _ => false
  | .invalid _ _ => true

/-- Two cycle states in the same phase, with the same opcode where the phase carries one; the operand or value beside it may
differ (R25). -/
def Cyc.sameButPayload : Cyc → Cyc → Bool
  | .latchPC, .latchPC => true
  | .fetch p, .fetch q => p == q
  | .ex1 m _, .ex1 m' _ | .ex2 m _, .ex2 m' _ | .ex3 m _, .ex3 m' _ => m == m'
  | .latchPC, _ | .fetch _, _ | .ex1 _ _, _ | .ex2 _ _, _ | .ex3 _ _, _ => false

/-- `CYC` agrees with the latches and `PC`: no latch is set between instructions and in Execute-2 and -3; during Fetch
`PC` is the snapshot, or one past it once the fetch has faulted, with the record saying what was fetched (R23, R141);
only HLT has halted the machine in Execute-1 and it never passes beyond (R132). -/
def State.cycOk (s : State) : Bool :=
  match s.cyc with
  | .latchPC => !s.halt && s.fault.isNone
  | .fetch p =>
    !s.halt &&
      match s.fault with
      | none => s.pc == p
      | some r => r.addr == p && s.pc == nextAddress p && s.memRead p == r.byte && undefinedByte r.byte
  | .ex1 m _ => s.fault.isNone && (!s.halt || m == .hlt)
  | .ex2 m _ => s.fault.isNone && !s.halt && m != .hlt
  | .ex3 m _ => s.fault.isNone && !s.halt && m != .hlt

/-- The machine's invariant: memory is canonical, `CYC` agrees with the rest, and a fresh machine is the machine right
after reset. -/
def State.Inv (s : State) : Prop :=
  s.mem.wf = true ∧ s.cycOk = true ∧ (s.fresh = true → s = State.reset)

/-- The states the host's operations bring about from construction: loading and advancing (R162, R171). -/
inductive Reachable : State → Prop where
  | reset : Reachable State.reset
  | load {s t : State} (bytes : List Byte) : Reachable s → load bytes s = .next t → Reachable t
  | step {s t : State} : Reachable s → step s = .next t → Reachable t

end Sys2Proof.Machine
end

