-- ==== Sys2Proof/Certificates/Slice0/Obligations.lean ====
section
/-! DEFINITION. The statements for the provers. Each docstring names the spec's sentence it formalises, and the log entry
where a clause rests on a choice. -/

open Sys2Proof Sys2Proof.Machine

/-! ## Encoding -/

/-- One byte of every row of the opcode table, its bits taken from 30_encoding.md section 3. The numbers are the default
`OPC` (PRESUMED by the spec, log entry 1). -/
def Obligations.WordsDecodeToTheirInstructions : Prop :=
  decode [0b00000111] = .ok (.nop 7, []) ∧ decode [0b00011100] = .ok (.lda 12, []) ∧
  decode [0b00101111] = .ok (.add 15, []) ∧ decode [0b00111110] = .ok (.sub 14, []) ∧
  decode [0b01001010] = .ok (.sta 10, []) ∧ decode [0b01010101] = .ok (.ldi 5, []) ∧
  decode [0b01100001] = .ok (.jmp 1, []) ∧ decode [0b01111001] = .ok (.jc 9, []) ∧
  decode [0b10001001] = .ok (.jz 9, []) ∧ decode [0b11101001] = .ok (.out 9, []) ∧
  decode [0b11111011] = .ok (.hlt 11, []) ∧ decode [0b10010000] = .ok (.undef9 0, []) ∧
  decode [0b10100000] = .ok (.undefA 0, []) ∧ decode [0b10110001] = .ok (.undefB 1, []) ∧
  decode [0b11000010] = .ok (.undefC 2, []) ∧ decode [0b11011111] = .ok (.undefD 15, [])

/-- Decoding an encoded instruction gives it back, with every operand, and takes exactly one byte (R60, R61). -/
def Obligations.DecodeOfEncodeIsTheInstruction : Prop :=
  ∀ (i : Instr) (rest : List Byte), decode (encode i :: rest) = .ok (i, rest)

/-- Encoding what a byte decodes to gives the byte back: no two bytes are one instruction. -/
def Obligations.EncodeOfDecodeIsTheByte : Prop :=
  ∀ b : Byte, encode (decodeByte b) = b

/-- For every opcode map, not the default alone: what the map encodes decodes to itself, and the invalid bytes are
exactly those whose high nibble is outside the map's image (R6, R65, R68). -/
def Obligations.EveryOpcodeMapRoundTrips : Prop :=
  ∀ opc : Opcode → Nibble, opcodeMapWellFormed opc = true →
    (∀ m n, decodeUnder opc (encodeUnder opc m n) = .instr m n) ∧
    (∀ b m n, decodeUnder opc b = .instr m n → encodeUnder opc m n = b) ∧
    (∀ b op n, decodeUnder opc b = .invalid op n ↔
      (op = highNibble b ∧ n = lowNibble b ∧ ∀ m, opc m ≠ op))

/-- The table's decoder is the rule's decoder (R68) at the default `OPC` (log entry 1). -/
def Obligations.TableDecoderIsTheRulesDecoder : Prop :=
  ∀ b : Byte, decodeUnder defaultOpc b = (decodeByte b).decoded

/-! ## Reset and memory -/

/-- Every piece of state right after reset (R30). `fresh` is the model's own (log entry 10), and the values of `FAULT`
and `OUT` are inferences the spec marks as its own. -/
def Obligations.ResetIsZeroed : Prop :=
  (∀ p, State.reset.memRead p = 0x00) ∧ State.reset.a = 0x00 ∧ State.reset.pc = 0x0 ∧
  State.reset.flags = .none ∧ State.reset.cyc = .latchPC ∧ State.reset.halt = false ∧
  State.reset.fault = none ∧ State.reset.out = [] ∧ State.reset.fresh = true

/-- R42: `MemWrite(a, 1, v)` performs `MEM[a] <- v` and changes no other cell, and nothing else. -/
def Obligations.MemWriteChangesOneCell : Prop :=
  ∀ (s : State) (p q : Nibble) (v : Byte), s.mem.wf = true →
    (s.memWrite p v).memRead q = (if q = p then v else s.memRead q) ∧
    s.memWrite p v = { s with mem := (s.memWrite p v).mem }

/-- Two canonical memories that read alike at all 16 addresses are the same data (the model's representation, log
entry 12). -/
def Obligations.CanonicalMemoriesAreEqualWhenTheyReadAlike : Prop :=
  ∀ m m' : Memory, m.wf = true → m'.wf = true → (∀ p, Memory.read m p = Memory.read m' p) → m = m'

/-! ## The transitions -/

/-- A step of a machine that is not terminal is `exec` of the instruction in progress: at Fetch, of what the byte at the
snapshot decodes to; from Execute-1 on, of the payload of `CYC`. At Execute-3, where `CYC` carries no operand, it is
`exec` of that opcode with any operand (log entry 9). Before Fetch there is no instruction: LatchPC snapshots `PC`. -/
def Obligations.StepRunsTheDecodedInstruction : Prop :=
  ∀ s : State, s.terminal = false →
    (s.cyc = .latchPC → step s = .next { s with cyc := .fetch s.pc, fresh := false }) ∧
    (∀ p i rest rest', s.cyc = .fetch p → decode (s.memRead p :: rest) = .ok (i, rest') → step s = exec i s) ∧
    (∀ m n, s.cyc = .ex1 m n → step s = exec (m.toInstr n) s) ∧
    (∀ m n, s.cyc = .ex2 m n → step s = exec (m.toInstr n) s) ∧
    (∀ m w n, s.cyc = .ex3 m w → step s = exec (m.toInstr n) s)

/-- R82, for every value of the parameters: LatchPC reads `PC`, writes `CYC` only, touches no memory (any memory, the
same next `CYC`) and returns running. That `exec` of every instruction is that snapshot in LatchPC is DEDUCED (log entry 8).
The model's own `fresh` (log entry 10) is no state of the spec's and is left open. -/
def Obligations.LatchPCSnapshotsThePC : Prop :=
  ∀ (c : Config) (s : State), s.terminal = false → s.cyc = .latchPC →
    ∃ f, advance c s = ({ s with cyc := .fetch s.pc, fresh := f }, .running) ∧
      step s = .next { s with cyc := .fetch s.pc, fresh := f } ∧
      ∀ i, exec i s = .next { s with cyc := .fetch s.pc, fresh := f }

/-- R83, for every value of the parameters: the byte at the snapshot is decoded, `PC` advances by 1 modulo 16, and `CYC`
becomes Execute-1, or the fault is taken. On the faulting path what is left is the spec's decision D5 (log entry 4). -/
def Obligations.FetchAdvancesThePCAndDecodes : Prop :=
  ∀ (c : Config) (s : State) (p : Nibble), s.terminal = false → s.cyc = .fetch p →
    advance c s =
      match decodeUnder c.opc (s.memRead p) with
      | .instr m n => ({ s with pc := s.pc + 1, cyc := .ex1 m n }, .running)
      | .invalid _ _ =>
        ({ s with pc := s.pc + 1, fault := some ⟨p, s.memRead p⟩ }, .fault (.undefinedOpcode ⟨p, s.memRead p⟩))

/-- R84: the Execute-1 transition under `uniform5`. A payload of `CYC` that no rule reads is left open (D8, log entry 6);
that `CYC` is left as it is by HLT is the spec's decision D7 (log entry 5). -/
def Obligations.ExecuteOneTransition : Prop :=
  ∀ (c : Config) (s : State) (m : Opcode) (n : Nibble), c.phasePolicy = .uniform5 → s.terminal = false →
    s.cyc = .ex1 m n →
    ∃ j, (m ∈ [Opcode.lda, .add, .sub, .sta] → j = n) ∧
      advance c s =
        match m with
        | .nop | .lda | .add | .sub | .sta => ({ s with cyc := .ex2 m j }, .running)
        | .ldi => ({ s with a := zext8 n, cyc := .ex2 m j }, .running)
        | .jmp => ({ s with pc := n, cyc := .ex2 m j }, .running)
        | .jc => ({ s with pc := if s.flags = .carry then n else s.pc, cyc := .ex2 m j }, .running)
        | .jz => ({ s with pc := if s.flags = .zero then n else s.pc, cyc := .ex2 m j }, .running)
        | .out => ({ s with out := s.out ++ [s.a], cyc := .ex2 m j }, .running)
        | .hlt => ({ s with halt := true }, .halted)

/-- R85: the Execute-2 transition under `uniform5`. HLT never reaches it. A payload of `CYC` that no rule reads is left
open (D8, log entry 6). -/
def Obligations.ExecuteTwoTransition : Prop :=
  ∀ (c : Config) (s : State) (m : Opcode) (n : Nibble), c.phasePolicy = .uniform5 → s.terminal = false →
    s.cyc = .ex2 m n → m ≠ .hlt →
    ∃ w, (m ∈ [Opcode.add, .sub] → w = s.memRead n) ∧
      advance c s =
        match m with
        | .lda => ({ s with a := s.memRead n, cyc := .ex3 m w }, .running)
        | .sta => ({ s with mem := Memory.write s.mem n s.a, cyc := .ex3 m w }, .running)
        | .add | .sub | .nop | .ldi | .jmp | .jc | .jz | .out | .hlt => ({ s with cyc := .ex3 m w }, .running)

/-- R86, for every value of the parameters: the Execute-3 transition, and no other transition writes `FLAGS`. -/
def Obligations.ExecuteThreeTransition : Prop :=
  ∀ (c : Config) (s : State),
    (∀ m w, s.terminal = false → s.cyc = .ex3 m w →
      advance c s =
        match m with
        | .add => ({ s with a := (aluAdd s.a w).1, flags := (aluAdd s.a w).2, cyc := .latchPC }, .running)
        | .sub =>
          ({ s with a := (aluSub c.subCarry s.a w).1, flags := (aluSub c.subCarry s.a w).2, cyc := .latchPC },
            .running)
        | .nop | .lda | .sta | .ldi | .jmp | .jc | .jz | .out | .hlt => ({ s with cyc := .latchPC }, .running)) ∧
    ((∀ m w, s.cyc ≠ .ex3 m w) → (advance c s).1.flags = s.flags)

/-- R90: `early_exit` changes the next `CYC` of Execute-1 and Execute-2 and nothing else. Which opcodes leave early is
partly the spec's decision D4 (log entry 3). -/
def Obligations.EarlyExitChangesOnlyTheNextPhase : Prop :=
  ∀ (c : Config) (s : State), c.phasePolicy = .uniform5 → s.terminal = false →
    let e := { c with phasePolicy := PhasePolicy.earlyExit }
    (∀ m n, s.cyc = .ex1 m n → m ∈ [Opcode.nop, .ldi, .jmp, .jc, .jz, .out] →
      advance e s = ({ (advance c s).1 with cyc := .latchPC }, (advance c s).2)) ∧
    (∀ m n, s.cyc = .ex2 m n → m ∈ [Opcode.lda, .sta] →
      advance e s = ({ (advance c s).1 with cyc := .latchPC }, (advance c s).2)) ∧
    ((∀ m n, s.cyc = .ex1 m n → m ∉ [Opcode.nop, .ldi, .jmp, .jc, .jz, .out]) →
      (∀ m n, s.cyc = .ex2 m n → m ∉ [Opcode.lda, .sta]) →
      advance e s = advance c s)

/-- R33, R81: a terminal machine is left as it is by every call, which returns its fault, or halted. That a fault is
terminal is the spec's decision D5 (log entry 4). -/
def Obligations.TerminalMachinesAreFrozen : Prop :=
  ∀ (c : Config) (s : State), s.terminal = true →
    step s = .next s ∧
    (∀ r, s.fault = some r → advance c s = (s, .fault (.undefinedOpcode r))) ∧
    (s.fault = none → advance c s = (s, .halted)) ∧
    ∀ k, advanceN c k s = s

/-! ## The ALU and the flag unit -/

/-- R100: both operations are modulo 256 on unsigned values, for every reading of the subtraction's Carry; neither takes
a carry in, and both are total. -/
def Obligations.AluIsModulo256 : Prop :=
  ∀ a b : Byte,
    (aluAdd a b).1.toNat = (a.toNat + b.toNat) % 256 ∧
    ∀ sc, ((aluSub sc a b).1.toNat : Int) = ((a.toNat : Int) - b.toNat) % 256

/-- R101: the result is the low 8 bits of the 9-bit sum, and the flags come from it and from the sum's bit 8, the carry
out of bit 7. -/
def Obligations.AluAddUsesTheNinthBit : Prop :=
  ∀ a b : Byte,
    let s9 : BitVec 9 := a.setWidth 9 + b.setWidth 9
    s9.toNat = a.toNat + b.toNat ∧
    (aluAdd a b).1 = s9.setWidth 8 ∧
    (aluAdd a b).2 = flagsOf (s9.setWidth 8) (s9.getLsbD 8)

/-- R102: Zero first, then Carry, else neither. Execute-3 of ADD and of SUB writes the whole of `FLAGS` with what this
function gives, whatever `FLAGS` held; no other call writes it. -/
def Obligations.FlagsComeFromTheFlagUnitAlone : Prop :=
  (∀ wide, flagsOf 0 wide = .zero) ∧
  (∀ r : Byte, r ≠ 0 → flagsOf r true = .carry ∧ flagsOf r false = .none) ∧
  ∀ (c : Config) (s : State),
    (∀ w, s.terminal = false → s.cyc = .ex3 .add w →
      (advance c s).1.flags = flagsOf (s.a + w) (decide (s.a.toNat + w.toNat ≥ 256))) ∧
    (∀ w, s.terminal = false → s.cyc = .ex3 .sub w →
      (advance c s).1.flags = flagsOf (s.a - w) (subWide c.subCarry s.a w)) ∧
    ((∀ w, s.cyc ≠ .ex3 .add w) → (∀ w, s.cyc ≠ .ex3 .sub w) → (advance c s).1.flags = s.flags)

/-- R103: what the three readings of the subtraction's 9-bit value come to. The machine takes `borrow`, the spec's
decision D3 (log entry 2). -/
def Obligations.SubtractionReadings : Prop :=
  chosen.subCarry = .borrow ∧
  ∀ a b : Byte,
    (aluSub .borrow a b).2 = flagsOf (a - b) (decide (a < b)) ∧
    (aluSub .notBorrow a b).2 = flagsOf (a - b) (decide (b ≤ a)) ∧
    (aluSub .negAdd a b).2 = flagsOf (a - b) (decide (b ≠ 0 ∧ b ≤ a)) ∧
    ∀ sc, (aluSub sc a b).1 = a - b

/-- R104, first table. -/
def Obligations.AddOutcomes : Prop :=
  ∀ a b : Byte,
    (a.toNat + b.toNat = 0 ∨ a.toNat + b.toNat = 256 → aluAdd a b = (0x00, .zero)) ∧
    (a.toNat + b.toNat > 256 →
      aluAdd a b = (BitVec.ofNat 8 (a.toNat + b.toNat - 256), .carry) ∧ a.toNat + b.toNat - 256 ∈ Set.Icc 1 254) ∧
    (0 < a.toNat + b.toNat → a.toNat + b.toNat < 256 → aluAdd a b = (BitVec.ofNat 8 (a.toNat + b.toNat), .none))

/-- R104, second table, for all three values of `SUB_CARRY`. -/
def Obligations.SubOutcomes : Prop :=
  ∀ a b : Byte,
    (a = b → ∀ sc, aluSub sc a b = (0x00, .zero)) ∧
    (b.toNat < a.toNat → b ≠ 0 →
      (∀ sc, (aluSub sc a b).1.toNat = a.toNat - b.toNat) ∧ (aluSub .borrow a b).2 = .none ∧
      (aluSub .notBorrow a b).2 = .carry ∧ (aluSub .negAdd a b).2 = .carry) ∧
    (b.toNat < a.toNat → b = 0 →
      (∀ sc, (aluSub sc a b).1 = a) ∧ (aluSub .borrow a b).2 = .none ∧
      (aluSub .notBorrow a b).2 = .carry ∧ (aluSub .negAdd a b).2 = .none) ∧
    (a.toNat < b.toNat →
      (∀ sc, (aluSub sc a b).1.toNat = a.toNat + 256 - b.toNat) ∧ (aluSub .borrow a b).2 = .carry ∧
      (aluSub .notBorrow a b).2 = .none ∧ (aluSub .negAdd a b).2 = .none)

/-! ## The instructions, one by one

Each statement says what the instruction does in each execute phase, every other piece of state staying as it is, and what
the five steps of the whole instruction come to. Payloads of `CYC` that no rule reads are left open (D8). Encodings rest on
the default `OPC` (log entry 1), the number of steps on `PHASE_POLICY = uniform5` (log entry 3). -/

/-- NOP (R130). -/
def Obligations.NopOnlyAdvancesThePC : Prop :=
  ∀ (n : Nibble) (s : State),
    (∀ m k, s.cyc = .ex1 m k → ∃ j, exec (.nop n) s = .next { s with cyc := .ex2 .nop j }) ∧
    (∀ m k, s.cyc = .ex2 m k → ∃ w, exec (.nop n) s = .next { s with cyc := .ex3 .nop w }) ∧
    (∀ m w, s.cyc = .ex3 m w → exec (.nop n) s = .next { s with cyc := .latchPC }) ∧
    (s.terminal = false → s.cyc = .latchPC → s.memRead s.pc = encode (.nop n) →
      Sys2Proof.core.run 5 s = .next { s with pc := s.pc + 1, fresh := false })

/-- LDA (R111): the accumulator is written in Execute-2; no flag is. -/
def Obligations.LdaLoadsTheAccumulator : Prop :=
  ∀ (n : Nibble) (s : State),
    (∀ m k, s.cyc = .ex1 m k → exec (.lda n) s = .next { s with cyc := .ex2 .lda n }) ∧
    (∀ m k, s.cyc = .ex2 m k →
      ∃ w, exec (.lda n) s = .next { s with a := s.memRead (effectiveAddress n), cyc := .ex3 .lda w }) ∧
    (∀ m w, s.cyc = .ex3 m w → exec (.lda n) s = .next { s with cyc := .latchPC }) ∧
    (s.terminal = false → s.cyc = .latchPC → s.memRead s.pc = encode (.lda n) →
      Sys2Proof.core.run 5 s = .next { s with pc := s.pc + 1, a := s.memRead n, fresh := false })

/-- ADD (R105): the byte is read in Execute-2; accumulator and flags are written in Execute-3. -/
def Obligations.AddAddsTheCellToTheAccumulator : Prop :=
  ∀ (n : Nibble) (s : State),
    (∀ m k, s.cyc = .ex1 m k → exec (.add n) s = .next { s with cyc := .ex2 .add n }) ∧
    (∀ m k, s.cyc = .ex2 m k →
      exec (.add n) s = .next { s with cyc := .ex3 .add (s.memRead (effectiveAddress n)) }) ∧
    (∀ m w, s.cyc = .ex3 m w →
      exec (.add n) s = .next
        { s with a := s.a + w, flags := flagsOf (s.a + w) (decide (s.a.toNat + w.toNat ≥ 256)), cyc := .latchPC }) ∧
    (s.terminal = false → s.cyc = .latchPC → s.memRead s.pc = encode (.add n) →
      Sys2Proof.core.run 5 s = .next
        { s with
          pc := s.pc + 1
          a := s.a + s.memRead n
          flags := flagsOf (s.a + s.memRead n) (decide (s.a.toNat + (s.memRead n).toNat ≥ 256))
          fresh := false })

/-- SUB (R106): as ADD, the accumulator the minuend. Carry is a borrow, `SUB_CARRY = borrow` (log entry 2). -/
def Obligations.SubSubtractsTheCellFromTheAccumulator : Prop :=
  ∀ (n : Nibble) (s : State),
    (∀ m k, s.cyc = .ex1 m k → exec (.sub n) s = .next { s with cyc := .ex2 .sub n }) ∧
    (∀ m k, s.cyc = .ex2 m k →
      exec (.sub n) s = .next { s with cyc := .ex3 .sub (s.memRead (effectiveAddress n)) }) ∧
    (∀ m w, s.cyc = .ex3 m w →
      exec (.sub n) s = .next
        { s with a := s.a - w, flags := flagsOf (s.a - w) (decide (s.a < w)), cyc := .latchPC }) ∧
    (s.terminal = false → s.cyc = .latchPC → s.memRead s.pc = encode (.sub n) →
      Sys2Proof.core.run 5 s = .next
        { s with
          pc := s.pc + 1
          a := s.a - s.memRead n
          flags := flagsOf (s.a - s.memRead n) (decide (s.a < s.memRead n))
          fresh := false })

/-- STA (R112): the cell is written in Execute-2, the instruction's own cell included; every other address reads as
before. -/
def Obligations.StaStoresTheAccumulator : Prop :=
  ∀ (n : Nibble) (s : State),
    (∀ m k, s.cyc = .ex1 m k → exec (.sta n) s = .next { s with cyc := .ex2 .sta n }) ∧
    (∀ m k, s.cyc = .ex2 m k →
      ∃ w, exec (.sta n) s = .next
        { s with mem := Memory.write s.mem (effectiveAddress n) s.a, cyc := .ex3 .sta w }) ∧
    (∀ m w, s.cyc = .ex3 m w → exec (.sta n) s = .next { s with cyc := .latchPC }) ∧
    (s.mem.wf = true → s.terminal = false → s.cyc = .latchPC → s.memRead s.pc = encode (.sta n) →
      ∃ t, Sys2Proof.core.run 5 s = .next t ∧
        t = { s with pc := s.pc + 1, mem := t.mem, fresh := false } ∧
        ∀ q, t.memRead q = if q = n then s.a else s.memRead q)

/-- LDI (R113): the whole accumulator is written in Execute-1, high nibble cleared; no flag is. -/
def Obligations.LdiLoadsTheLiteral : Prop :=
  ∀ (n : Nibble) (s : State),
    (∀ m k, s.cyc = .ex1 m k →
      ∃ j, exec (.ldi n) s = .next { s with a := joinNibbles 0 n, cyc := .ex2 .ldi j }) ∧
    (∀ m k, s.cyc = .ex2 m k → ∃ w, exec (.ldi n) s = .next { s with cyc := .ex3 .ldi w }) ∧
    (∀ m w, s.cyc = .ex3 m w → exec (.ldi n) s = .next { s with cyc := .latchPC }) ∧
    (s.terminal = false → s.cyc = .latchPC → s.memRead s.pc = encode (.ldi n) →
      Sys2Proof.core.run 5 s = .next { s with pc := s.pc + 1, a := joinNibbles 0 n, fresh := false })

/-- JMP (R121): `PC` is overwritten in Execute-1. -/
def Obligations.JmpJumps : Prop :=
  ∀ (n : Nibble) (s : State),
    (∀ m k, s.cyc = .ex1 m k → ∃ j, exec (.jmp n) s = .next { s with pc := n, cyc := .ex2 .jmp j }) ∧
    (∀ m k, s.cyc = .ex2 m k → ∃ w, exec (.jmp n) s = .next { s with cyc := .ex3 .jmp w }) ∧
    (∀ m w, s.cyc = .ex3 m w → exec (.jmp n) s = .next { s with cyc := .latchPC }) ∧
    (s.terminal = false → s.cyc = .latchPC → s.memRead s.pc = encode (.jmp n) →
      Sys2Proof.core.run 5 s = .next { s with pc := n, fresh := false })

/-- JC (R122): taken exactly where `FLAGS = carry`; the flag is not cleared. -/
def Obligations.JcJumpsExactlyOnCarry : Prop :=
  ∀ (n : Nibble) (s : State),
    (∀ m k, s.cyc = .ex1 m k →
      ∃ j, exec (.jc n) s = .next { s with pc := if s.flags = .carry then n else s.pc, cyc := .ex2 .jc j }) ∧
    (∀ m k, s.cyc = .ex2 m k → ∃ w, exec (.jc n) s = .next { s with cyc := .ex3 .jc w }) ∧
    (∀ m w, s.cyc = .ex3 m w → exec (.jc n) s = .next { s with cyc := .latchPC }) ∧
    (s.terminal = false → s.cyc = .latchPC → s.memRead s.pc = encode (.jc n) →
      Sys2Proof.core.run 5 s = .next
        { s with pc := if s.flags = .carry then n else s.pc + 1, fresh := false })

/-- JZ (R123): taken exactly where `FLAGS = zero`, whatever the accumulator holds. -/
def Obligations.JzJumpsExactlyOnZero : Prop :=
  ∀ (n : Nibble) (s : State),
    (∀ m k, s.cyc = .ex1 m k →
      ∃ j, exec (.jz n) s = .next { s with pc := if s.flags = .zero then n else s.pc, cyc := .ex2 .jz j }) ∧
    (∀ m k, s.cyc = .ex2 m k → ∃ w, exec (.jz n) s = .next { s with cyc := .ex3 .jz w }) ∧
    (∀ m w, s.cyc = .ex3 m w → exec (.jz n) s = .next { s with cyc := .latchPC }) ∧
    (s.terminal = false → s.cyc = .latchPC → s.memRead s.pc = encode (.jz n) →
      Sys2Proof.core.run 5 s = .next
        { s with pc := if s.flags = .zero then n else s.pc + 1, fresh := false })

/-- OUT (R131): one value per execution, the accumulator's at Execute-1. -/
def Obligations.OutEmitsTheAccumulator : Prop :=
  ∀ (n : Nibble) (s : State),
    (∀ m k, s.cyc = .ex1 m k →
      ∃ j, exec (.out n) s = .next { s with out := s.out ++ [s.a], cyc := .ex2 .out j }) ∧
    (∀ m k, s.cyc = .ex2 m k → ∃ w, exec (.out n) s = .next { s with cyc := .ex3 .out w }) ∧
    (∀ m w, s.cyc = .ex3 m w → exec (.out n) s = .next { s with cyc := .latchPC }) ∧
    (s.terminal = false → s.cyc = .latchPC → s.memRead s.pc = encode (.out n) →
      Sys2Proof.core.run 5 s = .next { s with pc := s.pc + 1, out := s.out ++ [s.a], fresh := false })

/-- HLT (R132): the latch is set in Execute-1, on the third step, and the machine stays there. That `CYC` is left as it is
is the spec's decision D7 (log entry 5). -/
def Obligations.HltHaltsOnTheThirdStep : Prop :=
  ∀ (n : Nibble) (s : State),
    (∀ m k, s.cyc = .ex1 m k → exec (.hlt n) s = .next { s with halt := true }) ∧
    (s.terminal = false → s.cyc = .latchPC → s.memRead s.pc = encode (.hlt n) →
      ∀ k, Sys2Proof.core.run (3 + k) s = .next
        { s with pc := s.pc + 1, halt := true, cyc := .ex1 .hlt n, fresh := false })

/-- The reserved rows (R133, R141): the fault is taken at Fetch, on the second step, and the machine stays there; in an
execute phase, which no step brings them to, they are refused by name (log entry 8). What the fault leaves is the spec's
decision D5 (log entry 4). -/
def Obligations.ReservedRowsTakeTheFaultAtFetch : Prop :=
  ∀ (i : Instr) (name : String) (n : Nibble) (s : State),
    (i, name) ∈ [(Instr.undef9 n, "UNDEF_9"), (.undefA n, "UNDEF_A"), (.undefB n, "UNDEF_B"), (.undefC n, "UNDEF_C"),
      (.undefD n, "UNDEF_D")] →
    (∀ p, s.cyc = .fetch p → exec i s = .next { s with pc := s.pc + 1, fault := some ⟨p, s.memRead p⟩ }) ∧
    (∀ m k, s.cyc = .ex1 m k ∨ s.cyc = .ex2 m k → exec i s = .refused (.noExecutePhase name)) ∧
    (∀ m w, s.cyc = .ex3 m w → exec i s = .refused (.noExecutePhase name)) ∧
    (s.terminal = false → s.cyc = .latchPC → s.memRead s.pc = encode i →
      ∀ k, Sys2Proof.core.run (2 + k) s = .next
        { s with pc := s.pc + 1, fault := some ⟨s.pc, encode i⟩, cyc := .fetch s.pc, fresh := false })

/-- R66: the operand nibble of NOP, OUT and HLT selects nothing: whatever it is, the transition is the same, the next phase
and the opcode in `CYC` included, but for the payload in which `CYC` carries it. The opcode numbers are the default `OPC`
(log entry 1). -/
def Obligations.IgnoredOperandsChangeNothing : Prop :=
  (∀ n, decodeByte (joinNibbles 0x0 n) = .nop n ∧ decodeByte (joinNibbles 0xE n) = .out n ∧
    decodeByte (joinNibbles 0xF n) = .hlt n) ∧
  ∀ (n n' : Nibble) (s t : State),
    (exec (.nop n) s = .next t → ∃ y, y.sameButPayload t.cyc = true ∧ exec (.nop n') s = .next { t with cyc := y }) ∧
    (exec (.out n) s = .next t → ∃ y, y.sameButPayload t.cyc = true ∧ exec (.out n') s = .next { t with cyc := y }) ∧
    (exec (.hlt n) s = .next t → ∃ y, y.sameButPayload t.cyc = true ∧ exec (.hlt n') s = .next { t with cyc := y })

/-! ## What an instruction leaves unchanged -/

/-- Memory: no arm of `exec` but STA's changes it, and STA, in Execute-2 alone, changes the one cell at its effective
address (R21, R112). -/
def Obligations.ExecLeavesMemory : Prop :=
  ∀ (i : Instr) (s t : State), exec i s = .next t →
    ((∀ n, i ≠ .sta n) → t.mem = s.mem ∧ ∀ q, t.memRead q = s.memRead q) ∧
    ((∀ op k, s.cyc ≠ .ex2 op k) → t.mem = s.mem ∧ ∀ q, t.memRead q = s.memRead q) ∧
    (∀ n a, i = .sta n → effectiveAddress n = a → s.mem.wf = true → ∀ q, q ≠ a → t.memRead q = s.memRead q)

/-- Registers: the accumulator is the destination of LDI in Execute-1, LDA in Execute-2, ADD and SUB in Execute-3; the flags
are written by ADD and SUB in Execute-3; `PC` changes at Fetch and in Execute-1 of a jump (R22, R23, R24). -/
def Obligations.ExecLeavesRegisters : Prop :=
  ∀ (i : Instr) (s t : State), exec i s = .next t →
    (t.a ≠ s.a →
      (∃ n m k, i = .ldi n ∧ s.cyc = .ex1 m k) ∨ (∃ n m k, i = .lda n ∧ s.cyc = .ex2 m k) ∨
      (∃ n m w, (i = .add n ∨ i = .sub n) ∧ s.cyc = .ex3 m w)) ∧
    (t.flags ≠ s.flags → ∃ n m w, (i = .add n ∨ i = .sub n) ∧ s.cyc = .ex3 m w) ∧
    (t.pc ≠ s.pc →
      (∃ p, s.cyc = .fetch p) ∨ (∃ n m k, (i = .jmp n ∨ i = .jc n ∨ i = .jz n) ∧ s.cyc = .ex1 m k))

/-- Latches and output: `HALT` is set by HLT in Execute-1 alone, `FAULT` by a reserved row at Fetch alone, `OUT` grows by OUT
in Execute-1 alone (R26, R27, R28), and the model's own `fresh` is cleared at LatchPC alone (log entry 10). -/
def Obligations.ExecLeavesLatchesAndOutput : Prop :=
  ∀ (i : Instr) (s t : State), exec i s = .next t →
    (t.halt ≠ s.halt → ∃ n m k, i = .hlt n ∧ s.cyc = .ex1 m k) ∧
    (t.fault ≠ s.fault →
      ∃ n p, (i = .undef9 n ∨ i = .undefA n ∨ i = .undefB n ∨ i = .undefC n ∨ i = .undefD n) ∧ s.cyc = .fetch p) ∧
    (t.out ≠ s.out → ∃ n m k, i = .out n ∧ s.cyc = .ex1 m k) ∧
    (t.fresh ≠ s.fresh → s.cyc = .latchPC)

/-! ## Rules about the whole machine, for every value of the parameters -/

/-- R22: the accumulator's writers, each with the value it writes, and its readers: ADD and SUB take it as the left operand,
STA stores it, OUT emits it, and nothing else reads it. -/
def Obligations.AccumulatorWritersAndReaders : Prop :=
  ∀ (c : Config) (s : State),
    (s.terminal = false →
      (advance c s).1.a =
        match s.cyc with
        | .ex1 .ldi n => zext8 n
        | .ex2 .lda n => s.memRead n
        | .ex3 .add w => s.a + w
        | .ex3 .sub w => s.a - w
        | _ => s.a) ∧
    (∀ n, s.terminal = false → s.mem.wf = true → s.cyc = .ex2 .sta n → (advance c s).1.memRead n = s.a) ∧
    (∀ n, s.terminal = false → s.cyc = .ex1 .out n → (advance c s).1.out = s.out ++ [s.a]) ∧
    ((∀ n, s.cyc ≠ .ex2 .sta n) → (∀ n, s.cyc ≠ .ex1 .out n) → (∀ w, s.cyc ≠ .ex3 .add w) →
      (∀ w, s.cyc ≠ .ex3 .sub w) →
      ∀ v, ∃ u, advance c { s with a := v } = ({ (advance c s).1 with a := u }, (advance c s).2))

/-- R23: the program counter's writers, each with the value it writes; it stays in 0..15; from Fetch on it is the next
sequential address, 0 after 15; and no transition reads it but LatchPC and Fetch. That a Fetch which faults increments `PC`
too is the spec's decision D5 (log entry 4). -/
def Obligations.ProgramCounterWritersAndReaders : Prop :=
  ∀ (c : Config) (s : State),
    (s.terminal = false →
      (advance c s).1.pc =
        match s.cyc with
        | .fetch _ => BitVec.ofNat 4 ((s.pc.toNat + 1) % 16)
        | .ex1 .jmp n => n
        | .ex1 .jc n => if s.flags = .carry then n else s.pc
        | .ex1 .jz n => if s.flags = .zero then n else s.pc
        | _ => s.pc) ∧
    (advance c s).1.pc.toNat < 16 ∧
    (s.terminal = false → s.cyc = .latchPC →
      (advance c s).1.cyc = .fetch s.pc ∧ (advanceN c 1 s).pc = s.pc ∧
      (advanceN c 2 s).pc = BitVec.ofNat 4 ((s.pc.toNat + 1) % 16) ∧ (advanceN c 2 s).flags = s.flags) ∧
    (s.cyc ≠ .latchPC → (∀ p, s.cyc ≠ .fetch p) →
      ∀ v, ∃ u, advance c { s with pc := v } = ({ (advance c s).1 with pc := u }, (advance c s).2))

/-- R24: at most one of Zero and Carry is set; ADD and SUB in Execute-3 write the flags and nothing else does; JC and JZ in
Execute-1 read them, JC the bit `C` and JZ the bit `Z`, and nothing else does. -/
def Obligations.FlagsWritersAndReaders : Prop :=
  (∀ f : Flags, (f.z = true ↔ f = .zero) ∧ (f.c = true ↔ f = .carry) ∧ ¬(f.z = true ∧ f.c = true)) ∧
  ∀ (c : Config) (s : State),
    (s.terminal = false →
      (advance c s).1.flags =
        match s.cyc with
        | .ex3 .add w => (aluAdd s.a w).2
        | .ex3 .sub w => (aluSub c.subCarry s.a w).2
        | _ => s.flags) ∧
    (∀ n, s.terminal = false → s.cyc = .ex1 .jc n → (advance c s).1.pc = if s.flags.c = true then n else s.pc) ∧
    (∀ n, s.terminal = false → s.cyc = .ex1 .jz n → (advance c s).1.pc = if s.flags.z = true then n else s.pc) ∧
    ((∀ n, s.cyc ≠ .ex1 .jc n) → (∀ n, s.cyc ≠ .ex1 .jz n) →
      ∀ f, ∃ g, advance c { s with flags := f } = ({ (advance c s).1 with flags := g }, (advance c s).2))

/-- R26: the halt latch is false at reset, is set by Execute-1 of HLT alone, is cleared by nothing, and once set no call
changes any field and every call returns halted. -/
def Obligations.HaltLatchIsSticky : Prop :=
  State.reset.halt = false ∧
  (∀ (c : Config) (s : State), s.halt = false → (advance c s).1.halt = true → ∃ n, s.cyc = .ex1 .hlt n) ∧
  (∀ (c : Config) (s : State) (k : Nat), s.halt = true →
    advanceN c k s = s ∧ (s.fault = none → (advance c s).2 = .halted)) ∧
  (∀ (bytes : List Byte) (s t : State), load bytes s = .next t → t.halt = s.halt)

/-- R21: `MEM` is written by STA in Execute-2 and by the host's load, and by nothing else; every cell holds any byte. -/
def Obligations.MemoryWriters : Prop :=
  (∀ (c : Config) (s : State),
    (advance c s).1.mem = s.mem ∨
    ∃ n, s.cyc = .ex2 .sta n ∧ (advance c s).1 = { (advance c s).1 with mem := Memory.write s.mem n s.a }) ∧
  (∀ (s : State) (p : Nibble) (v : Byte), s.mem.wf = true → (s.memWrite p v).memRead p = v)

/-- R43: memory is accessed in two phases only, at most once per transition: Fetch reads the cell at its snapshot, Execute-2
of LDA, ADD and SUB reads the cell at its address, Execute-2 of STA writes it. A machine whose other cells differ makes the
same transition. -/
def Obligations.MemoryIsAccessedInTwoPhases : Prop :=
  ∀ (c : Config) (s : State) (m' : Memory),
    ((advance c s).1.mem =
      match s.terminal, s.cyc with
      | false, .ex2 .sta n => Memory.write s.mem n s.a
      | _, _ => s.mem) ∧
    ((∀ p, s.cyc = .fetch p → Memory.read m' p = s.memRead p) →
      (∀ op n, s.cyc = .ex2 op n → op = .lda ∨ op = .add ∨ op = .sub → Memory.read m' n = s.memRead n) →
      ∃ m'', advance c { s with mem := m' } = ({ (advance c s).1 with mem := m'' }, (advance c s).2))

/-- R28: the output is append-only, grows by the accumulator in Execute-1 of OUT and by nothing else, and no transition
reads it. That the sink never refuses is the spec's decision D14 (log entry 11). -/
def Obligations.OutputIsAppendOnly : Prop :=
  ∀ (c : Config) (s : State),
    ((advance c s).1.out =
      match s.terminal, s.cyc with
      | false, .ex1 .out _ => s.out ++ [s.a]
      | _, _ => s.out) ∧
    ∀ o, ∃ o', advance c { s with out := o } = ({ (advance c s).1 with out := o' }, (advance c s).2)

/-- R65, R141: a step raises the fault when, and only when, it fetches a byte with an undefined opcode nibble; the record is
the address and the byte; 80 of the 256 bytes are such. Which ones rests on the default `OPC` (log entry 1), what the fault
leaves on D5 (log entry 4). -/
def Obligations.FaultIsRaisedExactlyByAnUndefinedFetch : Prop :=
  (∀ s t : State, s.terminal = false → step s = .next t →
    (t.fault ≠ none ↔ ∃ p, s.cyc = .fetch p ∧ undefinedByte (s.memRead p) = true) ∧
    ∀ r, t.fault = some r →
      s.cyc = .fetch r.addr ∧ r.byte = s.memRead r.addr ∧
      t = { s with pc := s.pc + 1, fault := some r }) ∧
  (∀ b : Byte, undefinedByte b = true ↔ 9 ≤ (highNibble b).toNat ∧ (highNibble b).toNat ≤ 13) ∧
  ((List.range 256).filter fun b => undefinedByte (BitVec.ofNat 8 b)).length = 80

/-- R144: no defined instruction can fault in any phase; every step completes; and the only fault of a running machine is the
fetch of an undefined byte. -/
def Obligations.DefinedInstructionsNeverFault : Prop :=
  (∀ (m : Opcode) (n : Nibble) (s : State), ∃ t, exec (m.toInstr n) s = .next t ∧ t.fault = s.fault) ∧
  (∀ s : State, ∃ t, step s = .next t) ∧
  (∀ s t : State, step s = .next t → t.fault ≠ s.fault →
    ∃ p, s.cyc = .fetch p ∧ undefinedByte (s.memRead p) = true)

/-- R53: the byte a store leaves is what a later fetch of that cell decodes; outside Fetch the instruction in progress is not
read from memory, so a store to its own cell does not change it. -/
def Obligations.StoresAreSeenByLaterFetches : Prop :=
  (∀ (s t u : State) (n : Nibble), s.mem.wf = true → s.terminal = false → s.cyc = .ex2 .sta n → step s = .next t →
    u.mem = t.mem → u.cyc = .fetch n → u.current = some (decodeByte s.a)) ∧
  (∀ (s : State) (m' : Memory), (∀ p, s.cyc ≠ .fetch p) → { s with mem := m' }.current = s.current)

/-! ## The invariant -/

/-- The machine right after reset meets the invariant. -/
def Obligations.ResetMeetsTheInvariant : Prop := State.reset.Inv

/-- Every step keeps the invariant: memory stays canonical, `CYC` stays in agreement with the latches and `PC` (R23, R33,
R132, R141), and only a machine nothing has happened to is fresh (log entry 10). -/
def Obligations.StepKeepsTheInvariant : Prop :=
  ∀ s t : State, s.Inv → step s = .next t → t.Inv

/-- Every state the host's operations bring about meets the invariant; so `HALT` and `FAULT` are never both set (R33), and
HLT is never in progress beyond Execute-1 (R132). -/
def Obligations.ReachableStatesMeetTheInvariant : Prop :=
  ∀ s : State, Reachable s →
    s.Inv ∧ ¬(s.halt = true ∧ s.fault ≠ none) ∧ (∀ n, s.cyc ≠ .ex2 .hlt n) ∧ ∀ w, s.cyc ≠ .ex3 .hlt w

/-! ## Refinement -/

/-- The machine's step, which runs instructions, is the spec's `advance()` at the chosen parameters, which runs phases, and
what the call returns can be read from the state it leaves (R80, R81). -/
def Obligations.StepIsAdvance : Prop :=
  ∀ s : State, step s = .next (advance chosen s).1 ∧ (advance chosen s).2 = (advance chosen s).1.result

/-- R91: for every value of the parameters, the calls an instruction takes come to its net effect. `PC` and `CYC` of a machine
that has faulted are the spec's decision D5 (log entry 4), `CYC` of one that has halted D7 (log entry 5). -/
def Obligations.CallsComeToTheInstructionsNetEffect : Prop :=
  ∀ (c : Config) (s : State), s.terminal = false → s.cyc = .latchPC →
    advanceN c (callsOf c.phasePolicy (decodeUnder c.opc (s.memRead s.pc))) s = instrStep c s

/-- R89, R90: the counts of calls are exact: before the last one the machine is neither back at LatchPC nor terminal, and
after it it is one or the other. -/
def Obligations.CallCountsAreExact : Prop :=
  ∀ (c : Config) (s : State), s.terminal = false → s.cyc = .latchPC →
    let d := decodeUnder c.opc (s.memRead s.pc)
    (∀ k, 0 < k → k < callsOf c.phasePolicy d →
      (advanceN c k s).cyc ≠ .latchPC ∧ (advanceN c k s).terminal = false) ∧
    ((advanceN c (callsOf c.phasePolicy d) s).terminal = true ↔ (∃ op n, d = .invalid op n) ∨ ∃ n, d = .instr .hlt n) ∧
    ((advanceN c (callsOf c.phasePolicy d) s).terminal = false → (advanceN c (callsOf c.phasePolicy d) s).cyc = .latchPC)

/-- R92: iterating R91 until `HALT = 1` and iterating `advance()` until it halts reach the same states, from any machine
between instructions, a loaded fresh one among them, for every value of the parameters. That R91 stands for the one-shot
interpreter is DEDUCED (log entry 20); `CYC` of the halted machine, which the states compare too, is D7 (log entry 5). -/
def Obligations.InterpreterAndSimulatorHaltAlike : Prop :=
  ∀ (c : Config) (s t : State), s.terminal = false → s.cyc = .latchPC → t.halt = true →
    ((∃ k, instrStepN c k s = t) ↔ ∃ k, advanceN c k s = t)

/-- R90: a run that ends, by halting or by a fault, ends in the same state under every `PHASE_POLICY` (D4, log entry 3). The
state a fault leaves is D5 (log entry 4), `CYC` of a halted machine D7 (log entry 5), and fuel D17 (log entry 18). -/
def Obligations.PhasePolicyDoesNotChangeHowRunsEnd : Prop :=
  ∀ (c : Config) (pp : PhasePolicy) (s t : State) (e : RunEnd) (k : Nat),
    s.terminal = false → s.cyc = .latchPC → run c k s = (t, e) → e ≠ .outOfFuel →
    ∃ k', run { c with phasePolicy := pp } k' s = (t, e)

/-! ## The host -/

/-- R54, R142: a load on a fresh machine takes exactly 16 bytes, verbatim, and changes nothing else; another length is
`ImageLength`; a machine that is not fresh is refused (the spec's decision D9, log entry 10). -/
def Obligations.LoadTakesSixteenBytesOnce : Prop :=
  ∀ (bytes : List Byte) (s : State),
    (s.fresh = false → load bytes s = .refused .loadNotFresh) ∧
    (s.fresh = true → bytes.length ≠ 16 → load bytes s = .fault (.imageLength bytes.length)) ∧
    (s.fresh = true → bytes.length = 16 → s.mem.wf = true →
      ∃ t, load bytes s = .next t ∧ t = { s with mem := t.mem, fresh := false } ∧ t.mem.wf = true ∧
        ∀ p, bytes[p.toNat]? = some (t.memRead p))

/-- R93, R169: a run that returns halted has ended well, with `CYC` left at HLT's Execute-1 (D7, log entry 5); one that returns
a fault has not, and the fault is the one latched. -/
def Obligations.RunsEndWellExactlyWhenTheyHalt : Prop :=
  ∀ (s t : State) (k : Nat), s.Inv →
    (run chosen k s = (t, .halted) → t.endedWell = true ∧ ∃ n, t.cyc = .ex1 .hlt n) ∧
    (∀ f, run chosen k s = (t, .fault f) →
      t.endedWell = false ∧ ∃ r, f = .undefinedOpcode r ∧ t.fault = some r)
end

