-- ==== Sys2Proof/Laws/Decode.lean ====
section
/-! SUPPORT. Taking a byte apart and putting it together, and what looking an opcode nibble up can answer. -/

namespace Sys2Proof

@[simp] theorem highNibble_joinNibbles (op n : Nibble) : highNibble (joinNibbles op n) = op := by
  revert op n; decide

@[simp] theorem lowNibble_joinNibbles (op n : Nibble) : lowNibble (joinNibbles op n) = n := by
  revert op n; decide

@[simp] theorem joinNibbles_parts (b : Byte) : joinNibbles (highNibble b) (lowNibble b) = b := by
  revert b; decide

theorem Opcode.mem_all (m : Opcode) : m ∈ Opcode.all := by
  cases m <;> decide

/-- The opcode map check is injectivity. -/
theorem opcodeMapWellFormed_injective {code : Opcode → Nibble} (h : opcodeMapWellFormed code = true) {m m' : Opcode}
    (hm : code m = code m') : m = m' :=
  List.inj_on_of_nodup_map (of_decide_eq_true h) m.mem_all m'.mem_all hm

theorem opcodeAt_some {opc : Opcode → Nibble} {op : Nibble} {m : Opcode} (h : opcodeAt opc op = some m) :
    opc m = op := by
  simpa using List.find?_some h

theorem opcodeAt_none {opc : Opcode → Nibble} {op : Nibble} (h : opcodeAt opc op = none) (m : Opcode) : opc m ≠ op := by
  have := List.find?_eq_none.mp h m m.mem_all
  simpa using this

/-- Where `OPC` is injective, looking up a mnemonic's own nibble finds that mnemonic. -/
theorem opcodeAt_code {opc : Opcode → Nibble} (hw : opcodeMapWellFormed opc = true) (m : Opcode) :
    opcodeAt opc (opc m) = some m := by
  cases h : opcodeAt opc (opc m) with
  | none => exact absurd rfl (opcodeAt_none h m)
  | some m' => rw [opcodeMapWellFormed_injective hw (opcodeAt_some h)]

theorem defaultOpc_wellFormed : opcodeMapWellFormed defaultOpc = true := by decide

/-- The row's instruction with its operand, wherever it is a defined one. -/
theorem Opcode.toInstr_decoded (m : Opcode) (n : Nibble) : (m.toInstr n).decoded = .instr m n := by
  cases m <;> rfl

end Sys2Proof
end

