-- ==== Sys2Proof/Laws/State.lean ====
section
/-! SUPPORT. What each update of the state does to each field, so that no proof unfolds a record update. -/

namespace Sys2Proof.Machine

variable (s : State)
@[simp] theorem State.setA_mem (v : Byte) : (s.setA v).mem = s.mem := rfl
@[simp] theorem State.setA_a (v : Byte) : (s.setA v).a = v := rfl
@[simp] theorem State.setA_pc (v : Byte) : (s.setA v).pc = s.pc := rfl
@[simp] theorem State.setA_flags (v : Byte) : (s.setA v).flags = s.flags := rfl
@[simp] theorem State.setA_cyc (v : Byte) : (s.setA v).cyc = s.cyc := rfl
@[simp] theorem State.setA_halt (v : Byte) : (s.setA v).halt = s.halt := rfl
@[simp] theorem State.setA_fault (v : Byte) : (s.setA v).fault = s.fault := rfl
@[simp] theorem State.setA_out (v : Byte) : (s.setA v).out = s.out := rfl
@[simp] theorem State.setA_fresh (v : Byte) : (s.setA v).fresh = s.fresh := rfl

@[simp] theorem State.setA_memRead (v : Byte) (q : Nibble) : (s.setA v).memRead q = s.memRead q := rfl

@[simp] theorem State.setPc_mem (v : Nibble) : (s.setPc v).mem = s.mem := rfl
@[simp] theorem State.setPc_a (v : Nibble) : (s.setPc v).a = s.a := rfl
@[simp] theorem State.setPc_pc (v : Nibble) : (s.setPc v).pc = v := rfl
@[simp] theorem State.setPc_flags (v : Nibble) : (s.setPc v).flags = s.flags := rfl
@[simp] theorem State.setPc_cyc (v : Nibble) : (s.setPc v).cyc = s.cyc := rfl
@[simp] theorem State.setPc_halt (v : Nibble) : (s.setPc v).halt = s.halt := rfl
@[simp] theorem State.setPc_fault (v : Nibble) : (s.setPc v).fault = s.fault := rfl
@[simp] theorem State.setPc_out (v : Nibble) : (s.setPc v).out = s.out := rfl
@[simp] theorem State.setPc_fresh (v : Nibble) : (s.setPc v).fresh = s.fresh := rfl

@[simp] theorem State.setPc_memRead (v : Nibble) (q : Nibble) : (s.setPc v).memRead q = s.memRead q := rfl

@[simp] theorem State.setFlags_mem (f : Flags) : (s.setFlags f).mem = s.mem := rfl
@[simp] theorem State.setFlags_a (f : Flags) : (s.setFlags f).a = s.a := rfl
@[simp] theorem State.setFlags_pc (f : Flags) : (s.setFlags f).pc = s.pc := rfl
@[simp] theorem State.setFlags_flags (f : Flags) : (s.setFlags f).flags = f := rfl
@[simp] theorem State.setFlags_cyc (f : Flags) : (s.setFlags f).cyc = s.cyc := rfl
@[simp] theorem State.setFlags_halt (f : Flags) : (s.setFlags f).halt = s.halt := rfl
@[simp] theorem State.setFlags_fault (f : Flags) : (s.setFlags f).fault = s.fault := rfl
@[simp] theorem State.setFlags_out (f : Flags) : (s.setFlags f).out = s.out := rfl
@[simp] theorem State.setFlags_fresh (f : Flags) : (s.setFlags f).fresh = s.fresh := rfl

@[simp] theorem State.setFlags_memRead (f : Flags) (q : Nibble) : (s.setFlags f).memRead q = s.memRead q := rfl

@[simp] theorem State.setCyc_mem (c : Cyc) : (s.setCyc c).mem = s.mem := rfl
@[simp] theorem State.setCyc_a (c : Cyc) : (s.setCyc c).a = s.a := rfl
@[simp] theorem State.setCyc_pc (c : Cyc) : (s.setCyc c).pc = s.pc := rfl
@[simp] theorem State.setCyc_flags (c : Cyc) : (s.setCyc c).flags = s.flags := rfl
@[simp] theorem State.setCyc_cyc (c : Cyc) : (s.setCyc c).cyc = c := rfl
@[simp] theorem State.setCyc_halt (c : Cyc) : (s.setCyc c).halt = s.halt := rfl
@[simp] theorem State.setCyc_fault (c : Cyc) : (s.setCyc c).fault = s.fault := rfl
@[simp] theorem State.setCyc_out (c : Cyc) : (s.setCyc c).out = s.out := rfl
@[simp] theorem State.setCyc_fresh (c : Cyc) : (s.setCyc c).fresh = s.fresh := rfl

@[simp] theorem State.setCyc_memRead (c : Cyc) (q : Nibble) : (s.setCyc c).memRead q = s.memRead q := rfl

@[simp] theorem State.setHalt_mem : (s.setHalt).mem = s.mem := rfl
@[simp] theorem State.setHalt_a : (s.setHalt).a = s.a := rfl
@[simp] theorem State.setHalt_pc : (s.setHalt).pc = s.pc := rfl
@[simp] theorem State.setHalt_flags : (s.setHalt).flags = s.flags := rfl
@[simp] theorem State.setHalt_cyc : (s.setHalt).cyc = s.cyc := rfl
@[simp] theorem State.setHalt_halt : (s.setHalt).halt = true := rfl
@[simp] theorem State.setHalt_fault : (s.setHalt).fault = s.fault := rfl
@[simp] theorem State.setHalt_out : (s.setHalt).out = s.out := rfl
@[simp] theorem State.setHalt_fresh : (s.setHalt).fresh = s.fresh := rfl

@[simp] theorem State.setHalt_memRead (q : Nibble) : (s.setHalt).memRead q = s.memRead q := rfl

@[simp] theorem State.emit_mem (v : Byte) : (s.emit v).mem = s.mem := rfl
@[simp] theorem State.emit_a (v : Byte) : (s.emit v).a = s.a := rfl
@[simp] theorem State.emit_pc (v : Byte) : (s.emit v).pc = s.pc := rfl
@[simp] theorem State.emit_flags (v : Byte) : (s.emit v).flags = s.flags := rfl
@[simp] theorem State.emit_cyc (v : Byte) : (s.emit v).cyc = s.cyc := rfl
@[simp] theorem State.emit_halt (v : Byte) : (s.emit v).halt = s.halt := rfl
@[simp] theorem State.emit_fault (v : Byte) : (s.emit v).fault = s.fault := rfl
@[simp] theorem State.emit_out (v : Byte) : (s.emit v).out = s.out ++ [v] := rfl
@[simp] theorem State.emit_fresh (v : Byte) : (s.emit v).fresh = s.fresh := rfl

@[simp] theorem State.emit_memRead (v : Byte) (q : Nibble) : (s.emit v).memRead q = s.memRead q := rfl

@[simp] theorem State.touch_mem : (s.touch).mem = s.mem := rfl
@[simp] theorem State.touch_a : (s.touch).a = s.a := rfl
@[simp] theorem State.touch_pc : (s.touch).pc = s.pc := rfl
@[simp] theorem State.touch_flags : (s.touch).flags = s.flags := rfl
@[simp] theorem State.touch_cyc : (s.touch).cyc = s.cyc := rfl
@[simp] theorem State.touch_halt : (s.touch).halt = s.halt := rfl
@[simp] theorem State.touch_fault : (s.touch).fault = s.fault := rfl
@[simp] theorem State.touch_out : (s.touch).out = s.out := rfl
@[simp] theorem State.touch_fresh : (s.touch).fresh = false := rfl

@[simp] theorem State.touch_memRead (q : Nibble) : (s.touch).memRead q = s.memRead q := rfl

@[simp] theorem State.memWrite_mem (p : Nibble) (v : Byte) : (s.memWrite p v).mem = Memory.write s.mem p v := rfl
@[simp] theorem State.memWrite_a (p : Nibble) (v : Byte) : (s.memWrite p v).a = s.a := rfl
@[simp] theorem State.memWrite_pc (p : Nibble) (v : Byte) : (s.memWrite p v).pc = s.pc := rfl
@[simp] theorem State.memWrite_flags (p : Nibble) (v : Byte) : (s.memWrite p v).flags = s.flags := rfl
@[simp] theorem State.memWrite_cyc (p : Nibble) (v : Byte) : (s.memWrite p v).cyc = s.cyc := rfl
@[simp] theorem State.memWrite_halt (p : Nibble) (v : Byte) : (s.memWrite p v).halt = s.halt := rfl
@[simp] theorem State.memWrite_fault (p : Nibble) (v : Byte) : (s.memWrite p v).fault = s.fault := rfl
@[simp] theorem State.memWrite_out (p : Nibble) (v : Byte) : (s.memWrite p v).out = s.out := rfl
@[simp] theorem State.memWrite_fresh (p : Nibble) (v : Byte) : (s.memWrite p v).fresh = s.fresh := rfl

@[simp] theorem State.writeAlu_mem (rf : Byte × Flags) : (s.writeAlu rf).mem = s.mem := rfl
@[simp] theorem State.writeAlu_a (rf : Byte × Flags) : (s.writeAlu rf).a = rf.1 := rfl
@[simp] theorem State.writeAlu_pc (rf : Byte × Flags) : (s.writeAlu rf).pc = s.pc := rfl
@[simp] theorem State.writeAlu_flags (rf : Byte × Flags) : (s.writeAlu rf).flags = rf.2 := rfl
@[simp] theorem State.writeAlu_cyc (rf : Byte × Flags) : (s.writeAlu rf).cyc = s.cyc := rfl
@[simp] theorem State.writeAlu_halt (rf : Byte × Flags) : (s.writeAlu rf).halt = s.halt := rfl
@[simp] theorem State.writeAlu_fault (rf : Byte × Flags) : (s.writeAlu rf).fault = s.fault := rfl
@[simp] theorem State.writeAlu_out (rf : Byte × Flags) : (s.writeAlu rf).out = s.out := rfl
@[simp] theorem State.writeAlu_fresh (rf : Byte × Flags) : (s.writeAlu rf).fresh = s.fresh := rfl

@[simp] theorem State.writeAlu_memRead (rf : Byte × Flags) (q : Nibble) : (s.writeAlu rf).memRead q = s.memRead q := rfl

@[simp] theorem State.incPc_mem : (s.incPc).mem = s.mem := rfl
@[simp] theorem State.incPc_a : (s.incPc).a = s.a := rfl
@[simp] theorem State.incPc_pc : (s.incPc).pc = nextAddress s.pc := rfl
@[simp] theorem State.incPc_flags : (s.incPc).flags = s.flags := rfl
@[simp] theorem State.incPc_cyc : (s.incPc).cyc = s.cyc := rfl
@[simp] theorem State.incPc_halt : (s.incPc).halt = s.halt := rfl
@[simp] theorem State.incPc_fault : (s.incPc).fault = s.fault := rfl
@[simp] theorem State.incPc_out : (s.incPc).out = s.out := rfl
@[simp] theorem State.incPc_fresh : (s.incPc).fresh = s.fresh := rfl

@[simp] theorem State.incPc_memRead (q : Nibble) : (s.incPc).memRead q = s.memRead q := rfl

@[simp] theorem State.raiseUndefinedOpcode_mem (p : Nibble) (b : Byte) : (s.raiseUndefinedOpcode p b).mem = s.mem := rfl
@[simp] theorem State.raiseUndefinedOpcode_a (p : Nibble) (b : Byte) : (s.raiseUndefinedOpcode p b).a = s.a := rfl
@[simp] theorem State.raiseUndefinedOpcode_pc (p : Nibble) (b : Byte) : (s.raiseUndefinedOpcode p b).pc = s.pc := rfl
@[simp] theorem State.raiseUndefinedOpcode_flags (p : Nibble) (b : Byte) : (s.raiseUndefinedOpcode p b).flags = s.flags := rfl
@[simp] theorem State.raiseUndefinedOpcode_cyc (p : Nibble) (b : Byte) : (s.raiseUndefinedOpcode p b).cyc = s.cyc := rfl
@[simp] theorem State.raiseUndefinedOpcode_halt (p : Nibble) (b : Byte) : (s.raiseUndefinedOpcode p b).halt = s.halt := rfl
@[simp] theorem State.raiseUndefinedOpcode_fault (p : Nibble) (b : Byte) : (s.raiseUndefinedOpcode p b).fault = some ⟨p, b⟩ := rfl
@[simp] theorem State.raiseUndefinedOpcode_out (p : Nibble) (b : Byte) : (s.raiseUndefinedOpcode p b).out = s.out := rfl
@[simp] theorem State.raiseUndefinedOpcode_fresh (p : Nibble) (b : Byte) : (s.raiseUndefinedOpcode p b).fresh = s.fresh := rfl

@[simp] theorem State.raiseUndefinedOpcode_memRead (p : Nibble) (b : Byte) (q : Nibble) : (s.raiseUndefinedOpcode p b).memRead q = s.memRead q := rfl

@[simp] theorem State.takeUndefinedOpcode_mem (p : Nibble) : (s.takeUndefinedOpcode p).mem = s.mem := rfl
@[simp] theorem State.takeUndefinedOpcode_a (p : Nibble) : (s.takeUndefinedOpcode p).a = s.a := rfl
@[simp] theorem State.takeUndefinedOpcode_pc (p : Nibble) : (s.takeUndefinedOpcode p).pc = nextAddress s.pc := rfl
@[simp] theorem State.takeUndefinedOpcode_flags (p : Nibble) : (s.takeUndefinedOpcode p).flags = s.flags := rfl
@[simp] theorem State.takeUndefinedOpcode_cyc (p : Nibble) : (s.takeUndefinedOpcode p).cyc = s.cyc := rfl
@[simp] theorem State.takeUndefinedOpcode_halt (p : Nibble) : (s.takeUndefinedOpcode p).halt = s.halt := rfl
@[simp] theorem State.takeUndefinedOpcode_fault (p : Nibble) : (s.takeUndefinedOpcode p).fault = some ⟨p, s.memRead p⟩ := rfl
@[simp] theorem State.takeUndefinedOpcode_out (p : Nibble) : (s.takeUndefinedOpcode p).out = s.out := rfl
@[simp] theorem State.takeUndefinedOpcode_fresh (p : Nibble) : (s.takeUndefinedOpcode p).fresh = s.fresh := rfl

@[simp] theorem State.takeUndefinedOpcode_memRead (p : Nibble) (q : Nibble) : (s.takeUndefinedOpcode p).memRead q = s.memRead q := rfl

@[simp] theorem State.latchPC_mem : (s.latchPC).mem = s.mem := rfl
@[simp] theorem State.latchPC_a : (s.latchPC).a = s.a := rfl
@[simp] theorem State.latchPC_pc : (s.latchPC).pc = s.pc := rfl
@[simp] theorem State.latchPC_flags : (s.latchPC).flags = s.flags := rfl
@[simp] theorem State.latchPC_cyc : (s.latchPC).cyc = .fetch s.pc := rfl
@[simp] theorem State.latchPC_halt : (s.latchPC).halt = s.halt := rfl
@[simp] theorem State.latchPC_fault : (s.latchPC).fault = s.fault := rfl
@[simp] theorem State.latchPC_out : (s.latchPC).out = s.out := rfl
@[simp] theorem State.latchPC_fresh : (s.latchPC).fresh = false := rfl

@[simp] theorem State.latchPC_memRead (q : Nibble) : (s.latchPC).memRead q = s.memRead q := rfl

@[simp] theorem State.fetchDefined_mem (m : Opcode) (n : Nibble) : (s.fetchDefined m n).mem = s.mem := rfl
@[simp] theorem State.fetchDefined_a (m : Opcode) (n : Nibble) : (s.fetchDefined m n).a = s.a := rfl
@[simp] theorem State.fetchDefined_pc (m : Opcode) (n : Nibble) : (s.fetchDefined m n).pc = nextAddress s.pc := rfl
@[simp] theorem State.fetchDefined_flags (m : Opcode) (n : Nibble) : (s.fetchDefined m n).flags = s.flags := rfl
@[simp] theorem State.fetchDefined_cyc (m : Opcode) (n : Nibble) : (s.fetchDefined m n).cyc = .ex1 m n := rfl
@[simp] theorem State.fetchDefined_halt (m : Opcode) (n : Nibble) : (s.fetchDefined m n).halt = s.halt := rfl
@[simp] theorem State.fetchDefined_fault (m : Opcode) (n : Nibble) : (s.fetchDefined m n).fault = s.fault := rfl
@[simp] theorem State.fetchDefined_out (m : Opcode) (n : Nibble) : (s.fetchDefined m n).out = s.out := rfl
@[simp] theorem State.fetchDefined_fresh (m : Opcode) (n : Nibble) : (s.fetchDefined m n).fresh = s.fresh := rfl

@[simp] theorem State.fetchDefined_memRead (m : Opcode) (n : Nibble) (q : Nibble) : (s.fetchDefined m n).memRead q = s.memRead q := rfl

end Sys2Proof.Machine
end

