-- ==== Sys2Proof/Laws/Phases.lean ====
section
/-! SUPPORT. What a transition does, one lemma per phase: first for any row of the phase table (R87), then for the
11 defined instructions as 40_cycle_state_machine.md writes them, phase by phase (R82 to R86). -/

namespace Sys2Proof.Machine

@[simp] theorem afterEx1_uniform5 (m : Opcode) (n : Nibble) : afterEx1 .uniform5 m n = .ex2 m n := rfl

@[simp] theorem afterEx2_uniform5 (m : Opcode) (w : Byte) : afterEx2 .uniform5 m w = .ex3 m w := rfl

@[simp] theorem chosen_phasePolicy : chosen.phasePolicy = .uniform5 := rfl

@[simp] theorem chosen_subCarry : chosen.subCarry = .borrow := rfl

@[simp] theorem chosen_opc : chosen.opc = defaultOpc := rfl

variable {c : Config} {m : Opcode} {n : Nibble} {p : Phases} {s : State}

theorem runPhases_latchPC (h : s.cyc = .latchPC) : runPhases c m n p s = s.latchPC := by
  unfold runPhases; rw [h]

theorem runPhases_fetch {q : Nibble} (h : s.cyc = .fetch q) : runPhases c m n p s = s.fetchDefined m n := by
  unfold runPhases; rw [h]

theorem runPhases_ex1 {m' : Opcode} {n' : Nibble} (h : s.cyc = .ex1 m' n') :
    runPhases c m n p s = (p.ex1 s).setCyc (afterEx1 c.phasePolicy m n) := by
  unfold runPhases; rw [h]

theorem runPhases_ex2 {m' : Opcode} {n' : Nibble} (h : s.cyc = .ex2 m' n') :
    runPhases c m n p s = (p.ex2 s).setCyc (afterEx2 c.phasePolicy m (p.carry s)) := by
  unfold runPhases; rw [h]

theorem runPhases_ex3 {m' : Opcode} {w : Byte} (h : s.cyc = .ex3 m' w) :
    runPhases c m n p s = (p.ex3 w s).setCyc .latchPC := by
  unfold runPhases; rw [h]

theorem runReserved_latchPC (mn : String) (h : s.cyc = .latchPC) : runReserved mn s = .next s.latchPC := by
  unfold runReserved; rw [h]

theorem runReserved_fetch (mn : String) {q : Nibble} (h : s.cyc = .fetch q) :
    runReserved mn s = .next (s.takeUndefinedOpcode q) := by
  unfold runReserved; rw [h]

/-- Everything a reserved row's transition can do. -/
theorem runReserved_cases (mn : String) (s : State) :
    (s.cyc = .latchPC ∧ runReserved mn s = .next s.latchPC) ∨
    (∃ q, s.cyc = .fetch q ∧ runReserved mn s = .next (s.takeUndefinedOpcode q)) ∨
    runReserved mn s = .refused (.noExecutePhase mn) := by
  cases h : s.cyc with
  | latchPC => exact .inl ⟨rfl, runReserved_latchPC mn h⟩
  | fetch q => exact .inr (.inl ⟨q, rfl, runReserved_fetch mn h⟩)
  | ex1 | ex2 | ex3 => exact .inr (.inr (by unfold runReserved; rw [h]))

theorem transition_latchPC (c : Config) (m : Opcode) (n : Nibble) (h : s.cyc = .latchPC) :
    transition c m n s = s.latchPC := by
  cases m with
  | hlt => unfold transition hltTransition; rw [h]; exact runPhases_latchPC h
  | _ => exact runPhases_latchPC h

theorem transition_fetch (c : Config) (m : Opcode) (n : Nibble) {q : Nibble} (h : s.cyc = .fetch q) :
    transition c m n s = s.fetchDefined m n := by
  cases m with
  | hlt => unfold transition hltTransition; rw [h]; exact runPhases_fetch h
  | _ => exact runPhases_fetch h

/-- An instruction's own work in Execute-1 (R84), `CYC` apart. -/
def ex1Work (m : Opcode) (n : Nibble) (s : State) : State :=
  match m with
  | .ldi => s.setA (zext8 n)
  | .jmp => s.setPc n
  | .jc => if s.flags.c then s.setPc n else s
  | .jz => if s.flags.z then s.setPc n else s
  | .out => s.emit s.a
  | .hlt => s.setHalt
  | .nop | .lda | .add | .sub | .sta => s

/-- The Execute-1 transition (R84): HLT alone leaves `CYC` as it is. -/
theorem transition_ex1 (c : Config) (m : Opcode) (n : Nibble) {m' : Opcode} {n' : Nibble} (h : s.cyc = .ex1 m' n') :
    transition c m n s
      = if m = .hlt then s.setHalt else (ex1Work m n s).setCyc (afterEx1 c.phasePolicy m n) := by
  cases m with
  | hlt => unfold transition hltTransition; rw [h]; rfl
  | _ => exact runPhases_ex1 h

/-- An instruction's own work in Execute-2 (R85), `CYC` apart. -/
def ex2Work (m : Opcode) (n : Nibble) (s : State) : State :=
  match m with
  | .lda => s.setA (s.memRead n)
  | .sta => s.memWrite n s.a
  | .nop | .add | .sub | .ldi | .jmp | .jc | .jz | .out | .hlt => s

/-- The value Execute-2 hands on to Execute-3 (R85). -/
def ex2Carry (m : Opcode) (n : Nibble) (s : State) : Byte :=
  match m with
  | .lda | .add | .sub => s.memRead n
  | .nop | .sta | .ldi | .jmp | .jc | .jz | .out | .hlt => zext8 n

/-- The Execute-2 transition (R85). -/
theorem transition_ex2 (c : Config) (m : Opcode) (n : Nibble) {m' : Opcode} {n' : Nibble} (h : s.cyc = .ex2 m' n') :
    transition c m n s = (ex2Work m n s).setCyc (afterEx2 c.phasePolicy m (ex2Carry m n s)) := by
  cases m with
  | hlt => unfold transition hltTransition; rw [h]; exact runPhases_ex2 h
  | _ => exact runPhases_ex2 h

/-- An instruction's own work in Execute-3 (R86), `CYC` apart. -/
def ex3Work (c : Config) (m : Opcode) (w : Byte) (s : State) : State :=
  match m with
  | .add => s.writeAlu (aluAdd s.a w)
  | .sub => s.writeAlu (aluSub c.subCarry s.a w)
  | .nop | .lda | .sta | .ldi | .jmp | .jc | .jz | .out | .hlt => s

/-- The Execute-3 transition (R86): no operand is read. -/
theorem transition_ex3 (c : Config) (m : Opcode) (n : Nibble) {m' : Opcode} {w : Byte} (h : s.cyc = .ex3 m' w) :
    transition c m n s = (ex3Work c m w s).setCyc .latchPC := by
  cases m with
  | hlt => unfold transition hltTransition; rw [h]; exact runPhases_ex3 h
  | _ => exact runPhases_ex3 h

end Sys2Proof.Machine
end

