-- ==== Sys2Proof/Laws/Step.lean ====
section
/-! SUPPORT. What one step can do, said once; later proofs cite these instead of unfolding `step` or `exec`. -/

namespace Sys2Proof.Machine

variable {s t : State}

theorem not_terminal_iff : s.terminal = false ↔ s.halt = false ∧ s.fault = none := by
  unfold State.terminal
  cases s.halt <;> cases s.fault <;> simp

/-- A defined instruction's arm of `exec` is its transition at the chosen parameters. -/
theorem exec_toInstr (m : Opcode) (n : Nibble) (s : State) : exec (m.toInstr n) s = .next (transition chosen m n s) := by
  cases m <;> rfl

/-- An arm of `exec` is a defined instruction's transition or a reserved row's. -/
theorem exec_cases (i : Instr) :
    (∃ m n, i = m.toInstr n ∧ ∀ s, exec i s = .next (transition chosen m n s)) ∨
    (∃ op n mn, i.decoded = .invalid op n ∧ ∀ s, exec i s = runReserved mn s) := by
  cases i with
  | undef9 n | undefA n | undefB n | undefC n | undefD n => exact .inr ⟨_, _, _, rfl, fun _ => rfl⟩
  | nop n => exact .inl ⟨.nop, n, rfl, exec_toInstr .nop n⟩
  | lda n => exact .inl ⟨.lda, n, rfl, exec_toInstr .lda n⟩
  | add n => exact .inl ⟨.add, n, rfl, exec_toInstr .add n⟩
  | sub n => exact .inl ⟨.sub, n, rfl, exec_toInstr .sub n⟩
  | sta n => exact .inl ⟨.sta, n, rfl, exec_toInstr .sta n⟩
  | ldi n => exact .inl ⟨.ldi, n, rfl, exec_toInstr .ldi n⟩
  | jmp n => exact .inl ⟨.jmp, n, rfl, exec_toInstr .jmp n⟩
  | jc n => exact .inl ⟨.jc, n, rfl, exec_toInstr .jc n⟩
  | jz n => exact .inl ⟨.jz, n, rfl, exec_toInstr .jz n⟩
  | out n => exact .inl ⟨.out, n, rfl, exec_toInstr .out n⟩
  | hlt n => exact .inl ⟨.hlt, n, rfl, exec_toInstr .hlt n⟩

theorem step_of_terminal (h : s.terminal = true) : step s = .next s := by
  unfold step; rw [if_pos h]

theorem step_of_current {i : Instr} (h : s.terminal = false) (hi : s.current = some i) : step s = exec i s := by
  unfold step; rw [if_neg (by rw [h]; decide), hi]

theorem step_of_latchPC (h : s.terminal = false) (hc : s.cyc = .latchPC) : step s = .next s.latchPC := by
  unfold step State.current; rw [if_neg (by rw [h]; decide), hc]

/-- The transition of the instruction in progress, from Execute-1 on. -/
theorem step_of_ex1 {m : Opcode} {n : Nibble} (h : s.terminal = false) (hc : s.cyc = .ex1 m n) :
    step s = .next (transition chosen m n s) := by
  rw [step_of_current h (by unfold State.current; rw [hc]), exec_toInstr]

theorem step_of_ex2 {m : Opcode} {n : Nibble} (h : s.terminal = false) (hc : s.cyc = .ex2 m n) :
    step s = .next (transition chosen m n s) := by
  rw [step_of_current h (by unfold State.current; rw [hc]), exec_toInstr]

theorem step_of_ex3 {m : Opcode} {w : Byte} (h : s.terminal = false) (hc : s.cyc = .ex3 m w) :
    step s = .next (transition chosen m 0 s) := by
  rw [step_of_current h (by unfold State.current; rw [hc]), exec_toInstr]

/-- The arm of a decoded byte in the Fetch phase: a defined opcode goes on to Execute-1, any other takes the fault. -/
theorem exec_fetch (i : Instr) {p : Nibble} (hc : s.cyc = .fetch p) :
    exec i s = .next (match i.decoded with
      | .instr m n => s.fetchDefined m n
      | .invalid _ _ => s.takeUndefinedOpcode p) := by
  rcases exec_cases i with ⟨m, n, rfl, h⟩ | ⟨op, n, mn, hd, h⟩
  · rw [h, transition_fetch _ _ _ hc, Opcode.toInstr_decoded]
  · rw [h, runReserved_fetch _ hc, hd]

theorem step_of_fetch {p : Nibble} (h : s.terminal = false) (hc : s.cyc = .fetch p) :
    step s = .next (match (decodeByte (s.memRead p)).decoded with
      | .instr m n => s.fetchDefined m n
      | .invalid _ _ => s.takeUndefinedOpcode p) := by
  rw [step_of_current h (by unfold State.current; rw [hc]), exec_fetch _ hc]

/-- Everything a step can do. -/
theorem step_cases (h : step s = .next t) :
    (s.terminal = true ∧ t = s) ∨
    (s.terminal = false ∧
      ((s.cyc = .latchPC ∧ t = s.latchPC) ∨
       (∃ p m n, s.cyc = .fetch p ∧ (decodeByte (s.memRead p)).decoded = .instr m n ∧ t = s.fetchDefined m n) ∨
       (∃ p op n, s.cyc = .fetch p ∧ (decodeByte (s.memRead p)).decoded = .invalid op n
          ∧ t = s.takeUndefinedOpcode p) ∨
       (∃ n, s.cyc = .ex1 .hlt n ∧ t = s.setHalt) ∨
       (∃ m n, s.cyc = .ex1 m n ∧ m ≠ .hlt ∧ t = (ex1Work m n s).setCyc (.ex2 m n)) ∨
       (∃ m n, s.cyc = .ex2 m n ∧ t = (ex2Work m n s).setCyc (.ex3 m (ex2Carry m n s))) ∨
       (∃ m w, s.cyc = .ex3 m w ∧ t = (ex3Work chosen m w s).setCyc .latchPC))) := by
  cases hterm : s.terminal with
  | true =>
    rw [step_of_terminal hterm] at h
    cases h
    exact .inl ⟨rfl, rfl⟩
  | false =>
    refine .inr ⟨rfl, ?_⟩
    cases hc : s.cyc with
    | latchPC =>
      rw [step_of_latchPC hterm hc] at h
      cases h
      exact .inl ⟨rfl, rfl⟩
    | fetch p =>
      rw [step_of_fetch hterm hc] at h
      cases hd : (decodeByte (s.memRead p)).decoded with
      | instr m n =>
        rw [hd] at h
        cases h
        exact .inr (.inl ⟨p, m, n, rfl, hd, rfl⟩)
      | invalid op n =>
        rw [hd] at h
        cases h
        exact .inr (.inr (.inl ⟨p, op, n, rfl, hd, rfl⟩))
    | ex1 m n =>
      rw [step_of_ex1 hterm hc, transition_ex1 chosen m n hc] at h
      cases h
      by_cases hm : m = .hlt
      · subst hm
        exact .inr (.inr (.inr (.inl ⟨n, rfl, rfl⟩)))
      · rw [if_neg hm]
        exact .inr (.inr (.inr (.inr (.inl ⟨m, n, rfl, hm, rfl⟩))))
    | ex2 m n =>
      rw [step_of_ex2 hterm hc, transition_ex2 chosen m n hc] at h
      cases h
      exact .inr (.inr (.inr (.inr (.inr (.inl ⟨m, n, rfl, rfl⟩)))))
    | ex3 m w =>
      rw [step_of_ex3 hterm hc, transition_ex3 chosen m 0 hc] at h
      cases h
      exact .inr (.inr (.inr (.inr (.inr (.inr ⟨m, w, rfl, rfl⟩)))))

end Sys2Proof.Machine
end

