-- ==== Sys2Proof/Laws/Advance.lean ====
section
/-! SUPPORT. What one `advance()` call does and returns in each phase, for any parameters; and what many calls do to a
terminal machine. -/

namespace Sys2Proof.Machine

variable {c : Config} {s : State}

theorem advance_of_fault {r : FaultRecord} (h : s.fault = some r) :
    advance c s = (s, .fault (.undefinedOpcode r)) := by
  unfold advance; rw [h]

theorem advance_of_halt (hf : s.fault = none) (h : s.halt = true) : advance c s = (s, .halted) := by
  unfold advance; rw [hf]; exact if_pos h

/-- A terminal machine is left as it is. -/
theorem advance_of_terminal (h : s.terminal = true) : (advance c s).1 = s := by
  cases hf : s.fault with
  | some r => rw [advance_of_fault hf]
  | none =>
    rw [advance_of_halt hf]
    simpa [State.terminal, hf] using h

theorem advance_of_latchPC (h : s.terminal = false) (hc : s.cyc = .latchPC) : advance c s = (s.latchPC, .running) := by
  obtain ⟨hh, hf⟩ := not_terminal_iff.mp h
  unfold advance; rw [hf, hc]; exact if_neg (by rw [hh]; decide)

theorem advance_of_fetch_instr {p : Nibble} {m : Opcode} {n : Nibble} (h : s.terminal = false) (hc : s.cyc = .fetch p)
    (hd : decodeUnder c.opc (s.memRead p) = .instr m n) : advance c s = (s.fetchDefined m n, .running) := by
  obtain ⟨hh, hf⟩ := not_terminal_iff.mp h
  unfold advance; rw [hf, hc]
  dsimp only
  rw [if_neg (by rw [hh]; decide), hd]

theorem advance_of_fetch_invalid {p op n : Nibble} (h : s.terminal = false) (hc : s.cyc = .fetch p)
    (hd : decodeUnder c.opc (s.memRead p) = .invalid op n) :
    advance c s = (s.takeUndefinedOpcode p, .fault (.undefinedOpcode ⟨p, s.memRead p⟩)) := by
  obtain ⟨hh, hf⟩ := not_terminal_iff.mp h
  unfold advance; rw [hf, hc]
  dsimp only
  rw [if_neg (by rw [hh]; decide), hd]

theorem advance_of_ex1 {m : Opcode} {n : Nibble} (h : s.terminal = false) (hc : s.cyc = .ex1 m n) :
    advance c s = (transition c m n s, if m = .hlt then .halted else .running) := by
  obtain ⟨hh, hf⟩ := not_terminal_iff.mp h
  unfold advance; rw [hf, hc]
  dsimp only
  rw [if_neg (by rw [hh]; decide)]
  cases m <;> rfl

theorem advance_of_ex2 {m : Opcode} {n : Nibble} (h : s.terminal = false) (hc : s.cyc = .ex2 m n) :
    advance c s = (transition c m n s, .running) := by
  obtain ⟨hh, hf⟩ := not_terminal_iff.mp h
  unfold advance; rw [hf, hc]; exact if_neg (by rw [hh]; decide)

theorem advance_of_ex3 {m : Opcode} {w : Byte} (h : s.terminal = false) (hc : s.cyc = .ex3 m w) :
    advance c s = (transition c m 0 s, .running) := by
  obtain ⟨hh, hf⟩ := not_terminal_iff.mp h
  unfold advance; rw [hf, hc]; exact if_neg (by rw [hh]; decide)

/-- Everything a call on a machine that is not terminal can do. -/
theorem advance_cases (c : Config) (h : s.terminal = false) :
    (s.cyc = .latchPC ∧ advance c s = (s.latchPC, .running)) ∨
    (∃ p m n, s.cyc = .fetch p ∧ decodeUnder c.opc (s.memRead p) = .instr m n
      ∧ advance c s = (s.fetchDefined m n, .running)) ∨
    (∃ p op n, s.cyc = .fetch p ∧ decodeUnder c.opc (s.memRead p) = .invalid op n
      ∧ advance c s = (s.takeUndefinedOpcode p, .fault (.undefinedOpcode ⟨p, s.memRead p⟩))) ∨
    (∃ n, s.cyc = .ex1 .hlt n ∧ advance c s = (s.setHalt, .halted)) ∨
    (∃ m n, s.cyc = .ex1 m n ∧ m ≠ .hlt
      ∧ advance c s = ((ex1Work m n s).setCyc (afterEx1 c.phasePolicy m n), .running)) ∨
    (∃ m n, s.cyc = .ex2 m n
      ∧ advance c s = ((ex2Work m n s).setCyc (afterEx2 c.phasePolicy m (ex2Carry m n s)), .running)) ∨
    (∃ m w, s.cyc = .ex3 m w ∧ advance c s = ((ex3Work c m w s).setCyc .latchPC, .running)) := by
  cases hc : s.cyc with
  | latchPC => exact .inl ⟨rfl, advance_of_latchPC h hc⟩
  | fetch p =>
    cases hd : decodeUnder c.opc (s.memRead p) with
    | instr m n => exact .inr (.inl ⟨p, m, n, rfl, hd, advance_of_fetch_instr h hc hd⟩)
    | invalid op n => exact .inr (.inr (.inl ⟨p, op, n, rfl, hd, advance_of_fetch_invalid h hc hd⟩))
  | ex1 m n =>
    have ha := advance_of_ex1 (c := c) h hc
    rw [transition_ex1 _ _ _ hc] at ha
    by_cases hm : m = .hlt
    · subst hm
      exact .inr (.inr (.inr (.inl ⟨n, rfl, ha⟩)))
    · rw [if_neg hm, if_neg hm] at ha
      exact .inr (.inr (.inr (.inr (.inl ⟨m, n, rfl, hm, ha⟩))))
  | ex2 m n =>
    have ha := advance_of_ex2 (c := c) h hc
    rw [transition_ex2 _ _ _ hc] at ha
    exact .inr (.inr (.inr (.inr (.inr (.inl ⟨m, n, rfl, ha⟩)))))
  | ex3 m w =>
    have ha := advance_of_ex3 (c := c) h hc
    rw [transition_ex3 _ _ _ hc] at ha
    exact .inr (.inr (.inr (.inr (.inr (.inr ⟨m, w, rfl, ha⟩)))))

/-- Calls made in two portions. -/
theorem advanceN_add (j k : Nat) (s : State) : advanceN c (j + k) s = advanceN c k (advanceN c j s) := by
  induction j generalizing s with
  | zero => rw [Nat.zero_add]; rfl
  | succ j ih => rw [Nat.succ_add]; exact ih _

end Sys2Proof.Machine
end

