-- ==== Sys2Proof/Laws/Alu.lean ====
section
/-! SUPPORT. The ALU in terms of the bit vectors' own arithmetic, whose lemmas Mathlib has. -/

namespace Sys2Proof.Machine

@[simp] theorem aluAdd_fst (a b : Byte) : (aluAdd a b).1 = a + b := by
  apply BitVec.eq_of_toNat_eq
  simp [aluAdd, BitVec.toNat_add]

theorem aluAdd_snd (a b : Byte) : (aluAdd a b).2 = flagsOf (a + b) (decide (a.toNat + b.toNat ≥ 256)) := by
  rw [← aluAdd_fst]; rfl

@[simp] theorem aluSub_fst (sc : SubCarry) (a b : Byte) : (aluSub sc a b).1 = a - b := by
  have := a.isLt
  have := b.isLt
  apply BitVec.eq_of_toInt_eq
  simp only [aluSub, BitVec.toInt_sub, BitVec.toInt_ofInt, Int.bmod_def]
  simp only [BitVec.toInt]
  omega

theorem aluSub_snd (sc : SubCarry) (a b : Byte) : (aluSub sc a b).2 = flagsOf (a - b) (subWide sc a b) := by
  rw [← aluSub_fst sc]; rfl

/-- The default reading of a subtraction's Carry is a borrow. -/
theorem subWide_borrow (a b : Byte) : subWide .borrow a b = decide (a < b) := by
  have := a.isLt
  have := b.isLt
  simp only [subWide, decide_eq_decide, BitVec.lt_def]
  omega

end Sys2Proof.Machine
end

