-- ==== Sys2Proof/Laws/Memory.lean ====
section
/-! SUPPORT. What the memory operations do: a cell reads as last written, every other cell as before, and the canonical
form is kept. -/

namespace Sys2Proof.Machine

theorem Memory.lookup_cons (addr : Nat) (v : Byte) (rest : Memory) (q : Nat)
    (h : q = addr → Memory.lookup rest q = Memory.unlisted) :
    Memory.lookup (Memory.cons addr v rest) q = if q = addr then v else Memory.lookup rest q := by
  unfold Memory.cons
  split
  · split
    · rename_i hv hq; rw [h hq, hv]
    · rfl
  · simp only [Memory.lookup, eq_comm]

/-- A canonical memory lists no address below where it starts. -/
theorem Memory.lookup_below {m : Memory} {lo q : Nat} (h : Memory.wfFrom lo m = true) (hq : q < lo) :
    Memory.lookup m q = Memory.unlisted := by
  induction m generalizing lo with
  | nil => rfl
  | cons e rest ih =>
    obtain ⟨k, v⟩ := e
    simp only [Memory.wfFrom, Bool.and_eq_true, decide_eq_true_eq] at h
    rw [Memory.lookup, if_neg (by omega)]
    exact ih h.2 (by omega)

/-- One write, seen by every read: the one lemma about `Memory.insert` and `Memory.lookup`. -/
theorem Memory.lookup_insert {m : Memory} {lo : Nat} (h : Memory.wfFrom lo m = true) (addr q : Nat) (v : Byte) :
    Memory.lookup (Memory.insert m addr v) q = if q = addr then v else Memory.lookup m q := by
  induction m generalizing lo with
  | nil => exact Memory.lookup_cons addr v [] q fun _ => rfl
  | cons e rest ih =>
    obtain ⟨k, w⟩ := e
    have hm := h
    simp only [Memory.wfFrom, Bool.and_eq_true, decide_eq_true_eq] at h
    unfold Memory.insert
    split
    · rename_i hlt
      refine Memory.lookup_cons addr v _ q fun hq => ?_
      rw [Memory.lookup, if_neg (by omega)]
      exact Memory.lookup_below h.2 (by omega)
    · split
      · rename_i hk
        rw [Memory.lookup_cons addr v rest q fun hq => Memory.lookup_below h.2 (by omega)]
        split
        · rfl
        · rw [Memory.lookup, if_neg (by omega)]
      · rename_i hk
        rw [Memory.lookup, ih h.2, Memory.lookup]
        split
        · rw [if_neg (by omega)]
        · rfl

theorem Memory.wfFrom_mono {m : Memory} {lo hi : Nat} (h : Memory.wfFrom hi m = true) (hlo : lo ≤ hi) :
    Memory.wfFrom lo m = true := by
  cases m with
  | nil => rfl
  | cons e rest =>
    simp only [Memory.wfFrom, Bool.and_eq_true, decide_eq_true_eq] at h ⊢
    exact ⟨⟨⟨by omega, h.1.1.2⟩, h.1.2⟩, h.2⟩

theorem Memory.cons_wfFrom {rest : Memory} {lo addr : Nat} (hlo : lo ≤ addr) (h16 : addr < 16) (v : Byte)
    (h : Memory.wfFrom (addr + 1) rest = true) : Memory.wfFrom lo (Memory.cons addr v rest) = true := by
  unfold Memory.cons
  split
  · exact Memory.wfFrom_mono h (by omega)
  · rename_i hv
    simp only [Memory.wfFrom, Bool.and_eq_true, decide_eq_true_eq]
    exact ⟨⟨⟨hlo, h16⟩, hv⟩, h⟩

/-- A write keeps the canonical form. -/
theorem Memory.insert_wfFrom {m : Memory} {lo addr : Nat} (h : Memory.wfFrom lo m = true) (hlo : lo ≤ addr)
    (h16 : addr < 16) (v : Byte) : Memory.wfFrom lo (Memory.insert m addr v) = true := by
  induction m generalizing lo with
  | nil => exact Memory.cons_wfFrom hlo h16 v rfl
  | cons e rest ih =>
    obtain ⟨k, w⟩ := e
    simp only [Memory.wfFrom, Bool.and_eq_true, decide_eq_true_eq] at h
    unfold Memory.insert
    split
    · refine Memory.cons_wfFrom hlo h16 v ?_
      simp only [Memory.wfFrom, Bool.and_eq_true, decide_eq_true_eq]
      exact ⟨⟨⟨by omega, h.1.1.2⟩, h.1.2⟩, h.2⟩
    · split
      · rename_i hk
        exact Memory.cons_wfFrom hlo h16 v (hk ▸ h.2)
      · simp only [Memory.wfFrom, Bool.and_eq_true, decide_eq_true_eq]
        exact ⟨h.1, ih h.2 (by omega)⟩

/-- `MemWrite` keeps the canonical form. -/
theorem Memory.write_wf {m : Memory} (h : m.wf = true) (p : Nibble) (v : Byte) : (Memory.write m p v).wf = true :=
  Memory.insert_wfFrom h (Nat.zero_le _) p.isLt v

/-- The image load keeps the canonical form, as long as it stays inside the 16 cells. -/
theorem Memory.fill_wf {m : Memory} (h : m.wf = true) (i : Nat) (bytes : List Byte) (h16 : i + bytes.length ≤ 16) :
    (Memory.fill m i bytes).wf = true := by
  induction bytes generalizing m i with
  | nil => exact h
  | cons b rest ih =>
    simp only [List.length_cons] at h16
    exact ih (Memory.insert_wfFrom h (Nat.zero_le _) (by omega) b) (i + 1) (by omega)

/-- What the image load leaves in each cell: the bytes at consecutive cells, and every other cell as before. -/
theorem Memory.lookup_fill {m : Memory} (h : m.wf = true) (i : Nat) (bytes : List Byte) (h16 : i + bytes.length ≤ 16)
    (q : Nat) :
    Memory.lookup (Memory.fill m i bytes) q
      = if i ≤ q ∧ q < i + bytes.length then bytes.getD (q - i) 0 else Memory.lookup m q := by
  induction bytes generalizing m i with
  | nil => rw [if_neg (by simp only [List.length_nil]; omega)]; rfl
  | cons b rest ih =>
    simp only [List.length_cons] at h16 ⊢
    rw [Memory.fill, ih (Memory.insert_wfFrom h (Nat.zero_le _) (by omega) b) (i + 1) (by omega),
      Memory.lookup_insert h]
    by_cases h1 : q = i
    · subst h1
      rw [if_neg (by omega), if_pos rfl, if_pos (by omega), Nat.sub_self]
      rfl
    · by_cases h2 : i + 1 ≤ q ∧ q < i + 1 + rest.length
      · rw [if_pos h2, if_pos (by omega), show q - i = (q - (i + 1)) + 1 by omega]
        rfl
      · rw [if_neg h2, if_neg h1, if_neg (by omega)]

end Sys2Proof.Machine
end

