-- ==== Sys2Proof/Laws/PerInstr.lean ====
section
/-! SUPPORT. The family `Rows`: each instruction's byte has its row's opcode value in bits 7 to 4 and its operand in
bits 3 to 0 (R61, R64, R65), said once per constructor. -/

namespace Sys2Proof.Laws.Rows

/-- The row's opcode value, as spec/opcode_table.json writes it in the high half of "match". -/
def tableValue : Instr → Nat
  | .nop _ => 0
  | .lda _ => 1
  | .add _ => 2
  | .sub _ => 3
  | .sta _ => 4
  | .ldi _ => 5
  | .jmp _ => 6
  | .jc _ => 7
  | .jz _ => 8
  | .undef9 _ => 9
  | .undefA _ => 10
  | .undefB _ => 11
  | .undefC _ => 12
  | .undefD _ => 13
  | .out _ => 14
  | .hlt _ => 15

def Statement (i : Instr) : Prop := (encode i).toNat = 16 * tableValue i + i.operand.toNat

theorem nop (n : Nibble) : Statement (.nop n) := by unfold Statement; revert n; decide
theorem lda (n : Nibble) : Statement (.lda n) := by unfold Statement; revert n; decide
theorem add (n : Nibble) : Statement (.add n) := by unfold Statement; revert n; decide
theorem sub (n : Nibble) : Statement (.sub n) := by unfold Statement; revert n; decide
theorem sta (n : Nibble) : Statement (.sta n) := by unfold Statement; revert n; decide
theorem ldi (n : Nibble) : Statement (.ldi n) := by unfold Statement; revert n; decide
theorem jmp (n : Nibble) : Statement (.jmp n) := by unfold Statement; revert n; decide
theorem jc (n : Nibble) : Statement (.jc n) := by unfold Statement; revert n; decide
theorem jz (n : Nibble) : Statement (.jz n) := by unfold Statement; revert n; decide
theorem out (n : Nibble) : Statement (.out n) := by unfold Statement; revert n; decide
theorem hlt (n : Nibble) : Statement (.hlt n) := by unfold Statement; revert n; decide
theorem undef9 (n : Nibble) : Statement (.undef9 n) := by unfold Statement; revert n; decide
theorem undefA (n : Nibble) : Statement (.undefA n) := by unfold Statement; revert n; decide
theorem undefB (n : Nibble) : Statement (.undefB n) := by unfold Statement; revert n; decide
theorem undefC (n : Nibble) : Statement (.undefC n) := by unfold Statement; revert n; decide
theorem undefD (n : Nibble) : Statement (.undefD n) := by unfold Statement; revert n; decide

end Sys2Proof.Laws.Rows
end

