-- ==== Sys2Proof/Laws/Run.lean ====
section
/-! SUPPORT. Running the host's core: one step at a time, and a terminal machine for ever. -/

namespace Sys2Proof.Machine

variable {s t : State}

theorem core_run_zero (s : State) : Sys2Proof.core.run 0 s = .next s := rfl

theorem core_run_succ (k : Nat) (h : step s = .next t) : Sys2Proof.core.run (k + 1) s = Sys2Proof.core.run k t := by
  simp only [Host.Core.run]
  rw [show Sys2Proof.core.step s = .next t from h]

/-- A terminal machine is the same after any number of steps. -/
theorem core_run_terminal (k : Nat) (h : s.terminal = true) : Sys2Proof.core.run k s = .next s := by
  induction k with
  | zero => rfl
  | succ k ih => rw [core_run_succ k (step_of_terminal h), ih]

end Sys2Proof.Machine
end

