-- ==== Sys2Proof/Tests/Slice0.lean ====
section
/-! SUPPORT. The model's own tests. Expected results are the spec's: the vectors of 95_test_vectors.md, named in each
comment, or the encodings of 30_encoding.md section 3. Then, for each statement with hypotheses, a witness that meets them. -/

namespace Sys2Proof.Tests

open Sys2Proof Sys2Proof.Machine

/-- The machine after reset but for its cycle state; no longer fresh. -/
def based (c : Cyc) : State := { State.reset with cyc := c, fresh := false }

/-- The machine after reset with one byte at address 0; no longer fresh. -/
def placed (b : Byte) : State := { State.reset with mem := Memory.write [] 0 b, fresh := false }

/-- One field of the state an operation answers with. -/
def after {α : Type} (o : Host.Outcome State Fault Refusal) (field : State → α) : Option α :=
  match o with
  | .next t => some (field t)
  | .fault _ => none
  | .refused _ => none

/-- Whether an operation answers with this refusal. -/
def refusedWith (o : Host.Outcome State Fault Refusal) (r : Refusal) : Bool :=
  match o with
  | .refused r' => r == r'
  | .next _ | .fault _ => false

/-- Whether an operation answers with this fault. -/
def faultsWith (o : Host.Outcome State Fault Refusal) (f : Fault) : Bool :=
  match o with
  | .fault f' => f == f'
  | .next _ | .refused _ => false

/-! ## Checks on what is given from outside, each with an ill-formed term -/

theorem test_image_of_16_is_well_formed : imageWellFormed (List.replicate 16 0x00) = true := by decide
theorem test_image_of_15_is_ill_formed : imageWellFormed (List.replicate 15 0x00) = false := by decide
theorem test_image_of_17_is_ill_formed : imageWellFormed (List.replicate 17 0x00) = false := by decide
theorem test_default_opcode_map_is_well_formed : opcodeMapWellFormed defaultOpc = true := by decide
theorem test_constant_opcode_map_is_ill_formed : opcodeMapWellFormed (fun _ => 0x3) = false := by decide
theorem test_hlt_with_a_nibble_is_not_canonical : (Instr.hlt 11).canonical = false := by decide
theorem test_hlt_0_is_canonical : (Instr.hlt 0).canonical = true := by decide
theorem test_memory_listing_a_zero_is_ill_formed : Memory.wf [(3, 0x00)] = false := by decide
theorem test_memory_out_of_order_is_ill_formed : Memory.wf [(3, 0x01), (2, 0x01)] = false := by decide
theorem test_memory_with_a_17th_cell_is_ill_formed : Memory.wf [(16, 0x01)] = false := by decide

/-! ## Decoding, one word per row, written out from 30_encoding.md section 3 -/

theorem test_decode_nop : decodeTableWord 8 0b00000111 = some (.nop 7) := by decide
theorem test_decode_lda : decodeTableWord 8 0b00011100 = some (.lda 12) := by decide
theorem test_decode_add : decodeTableWord 8 0b00101111 = some (.add 15) := by decide
theorem test_decode_sub : decodeTableWord 8 0b00111110 = some (.sub 14) := by decide
theorem test_decode_sta : decodeTableWord 8 0b01001010 = some (.sta 10) := by decide
theorem test_decode_ldi : decodeTableWord 8 0b01010101 = some (.ldi 5) := by decide
theorem test_decode_jmp : decodeTableWord 8 0b01100001 = some (.jmp 1) := by decide
theorem test_decode_jc : decodeTableWord 8 0b01111001 = some (.jc 9) := by decide
theorem test_decode_jz : decodeTableWord 8 0b10001001 = some (.jz 9) := by decide
theorem test_decode_undef9 : decodeTableWord 8 0b10010000 = some (.undef9 0) := by decide
theorem test_decode_undefA : decodeTableWord 8 0b10100000 = some (.undefA 0) := by decide
theorem test_decode_undefB : decodeTableWord 8 0b10110001 = some (.undefB 1) := by decide
theorem test_decode_undefC : decodeTableWord 8 0b11000010 = some (.undefC 2) := by decide
theorem test_decode_undefD : decodeTableWord 8 0b11011111 = some (.undefD 15) := by decide
theorem test_decode_out : decodeTableWord 8 0b11101001 = some (.out 9) := by decide
theorem test_decode_hlt : decodeTableWord 8 0b11111011 = some (.hlt 11) := by decide
theorem test_decode_two_bytes_is_no_instruction : decodeTableWord 16 0x1C = none := by decide

/-- The image of Scenario A: LDI 5, STA 10, LDA 10, HLT. -/
theorem test_encode_scenario_a :
    [Instr.ldi 5, .sta 10, .lda 10, .hlt 0].map encode = [0x55, 0x4A, 0x1A, 0xF0] := by decide

/-! ## The ALU: the tables of sections 2.1 and 2.2 -/

theorem test_alu_add_table :
    [aluAdd 0x00 0x00, aluAdd 0x01 0x00, aluAdd 0x7F 0x01, aluAdd 0xF0 0x0F, aluAdd 0xF0 0x10, aluAdd 0xFF 0x01,
      aluAdd 0x80 0x80, aluAdd 0xF0 0x11, aluAdd 0xC8 0x64, aluAdd 0xFF 0xFF]
    = [(0x00, .zero), (0x01, .none), (0x80, .none), (0xFF, .none), (0x00, .zero), (0x00, .zero),
      (0x00, .zero), (0x01, .carry), (0x2C, .carry), (0xFE, .carry)] := by decide

theorem test_alu_sub_table_borrow :
    [aluSub .borrow 0x05 0x05, aluSub .borrow 0x05 0x03, aluSub .borrow 0x80 0x7F, aluSub .borrow 0xFF 0x00,
      aluSub .borrow 0x03 0x05, aluSub .borrow 0x00 0x80]
    = [(0x00, .zero), (0x02, .none), (0x01, .none), (0xFF, .none), (0xFE, .carry), (0x80, .carry)] := by decide

theorem test_alu_sub_table_not_borrow :
    [aluSub .notBorrow 0x05 0x05, aluSub .notBorrow 0x05 0x03, aluSub .notBorrow 0x80 0x7F, aluSub .notBorrow 0xFF 0x00,
      aluSub .notBorrow 0x03 0x05, aluSub .notBorrow 0x00 0x80]
    = [(0x00, .zero), (0x02, .carry), (0x01, .carry), (0xFF, .carry), (0xFE, .none), (0x80, .none)] := by decide

theorem test_alu_sub_table_neg_add :
    [aluSub .negAdd 0x05 0x05, aluSub .negAdd 0x05 0x03, aluSub .negAdd 0x80 0x7F, aluSub .negAdd 0xFF 0x00,
      aluSub .negAdd 0x03 0x05, aluSub .negAdd 0x00 0x80]
    = [(0x00, .zero), (0x02, .carry), (0x01, .carry), (0xFF, .none), (0xFE, .none), (0x80, .none)] := by decide

/-! ## Single transitions -/

/-- The first call of the trace of S-A. -/
theorem test_latchPC : after (step { State.reset with pc := 3 }) State.cyc = some (.fetch 3) := by decide

/-- V-N2: the increment wraps at 15. -/
theorem test_nop_at_15_wraps : after (exec (.nop 7) { based (.fetch 15) with pc := 15 }) State.pc = some 0 := by decide

/-- V-L3: an undefined-opcode byte is fine as data. -/
theorem test_lda : after (exec (.lda 12) { based (.ex2 .lda 12) with mem := [(12, 0x9C)] }) State.a = some 0x9C := by
  decide

/-- V-L5: loading a zero byte does not set Zero. -/
theorem test_lda_leaves_flags :
    after (exec (.lda 12) { based (.ex2 .lda 12) with a := 0x07 }) (fun t => (t.a, t.flags)) = some (0x00, .none) := by
  decide

/-- S-B: 0xFF + 0xFF is 0xFE with Carry. -/
theorem test_add_wraps :
    after (exec (.add 15) { based (.ex3 .add 0xFF) with a := 0xFF }) (fun t => (t.a, t.flags)) = some (0xFE, .carry) := by
  decide

/-- V-A2: ADD of its own cell carries its own byte forward. -/
theorem test_add_reads_its_own_byte :
    after (exec (.add 0) { placed 0x20 with cyc := .ex2 .add 0 }) State.cyc = some (.ex3 .add 0x20) := by decide

/-- V-B1: 3 - 5 under `borrow`. -/
theorem test_sub_borrows :
    after (exec (.sub 15) { based (.ex3 .sub 0x05) with a := 0x03 }) (fun t => (t.a, t.flags)) = some (0xFE, .carry) := by
  decide

/-- V-B2: 5 - 3, the accumulator being the minuend. -/
theorem test_sub_order :
    after (exec (.sub 15) { based (.ex3 .sub 0x03) with a := 0x05 }) (fun t => (t.a, t.flags)) = some (0x02, .none) := by
  decide

/-- V-S1. -/
theorem test_sta_top_cell :
    after (exec (.sta 15) { based (.ex2 .sta 15) with a := 0xC3 }) State.mem = some [(15, 0xC3)] := by decide

/-- V-S2: the store replaces the STA's own byte. -/
theorem test_sta_own_cell :
    after (exec (.sta 3) { based (.ex2 .sta 3) with a := 0xF0, mem := [(3, 0x43)] }) (fun t => t.memRead 3) = some 0xF0 := by
  decide

/-- V-L1: the high nibble is cleared. -/
theorem test_ldi : after (exec (.ldi 15) { based (.ex1 .ldi 15) with a := 0xAB }) State.a = some 0x0F := by decide

/-- V-L2: LDI 0 leaves the flags. -/
theorem test_ldi_leaves_flags :
    after (exec (.ldi 0) { based (.ex1 .ldi 0) with a := 0xAB, flags := .carry }) (fun t => (t.a, t.flags))
      = some (0x00, .carry) := by decide

/-- V-J1. -/
theorem test_jmp : after (exec (.jmp 1) { based (.ex1 .jmp 1) with pc := 4 }) State.pc = some 1 := by decide

/-- V-J3. -/
theorem test_jc_taken :
    after (exec (.jc 9) { based (.ex1 .jc 9) with pc := 3, flags := .carry }) (fun t => (t.pc, t.flags))
      = some (9, .carry) := by decide

/-- V-J4. -/
theorem test_jc_not_taken_on_zero :
    after (exec (.jc 9) { based (.ex1 .jc 9) with pc := 3, flags := .zero }) State.pc = some 3 := by decide

/-- V-J6. -/
theorem test_jz_taken :
    after (exec (.jz 9) { based (.ex1 .jz 9) with pc := 3, flags := .zero }) (fun t => (t.pc, t.flags))
      = some (9, .zero) := by decide

/-- V-J8: the flag is tested, not the accumulator. -/
theorem test_jz_not_taken_on_zero_accumulator :
    after (exec (.jz 9) { based (.ex1 .jz 9) with pc := 3 }) State.pc = some 3 := by decide

/-- V-O1, after an earlier emission. -/
theorem test_out_appends :
    after (exec (.out 0) { based (.ex1 .out 0) with a := 0xFF, out := [0x01] }) State.out = some [0x01, 0xFF] := by decide

/-- V-H2: `CYC` stays `Ex1(HLT, 11)`. -/
theorem test_hlt :
    after (step { based (.ex1 .hlt 11) with pc := 3 }) (fun t => (t.halt, t.pc, t.cyc))
      = some (true, 3, .ex1 .hlt 11) := by decide

/-- V-U1. -/
theorem test_undef9 :
    after (step { based (.fetch 1) with pc := 1, mem := [(1, 0x90)] }) (fun t => (t.fault, t.pc, t.cyc))
      = some (some ⟨1, 0x90⟩, 2, .fetch 1) := by decide

/-- V-U3: the increment wraps on the faulting path too. -/
theorem test_undefA_at_15_wraps :
    after (step { based (.fetch 15) with pc := 15, mem := [(15, 0xA0)] }) (fun t => (t.fault, t.pc))
      = some (some ⟨15, 0xA0⟩, 0) := by decide

/-- V-U2. -/
theorem test_undefD :
    after (step { placed 0xDF with cyc := .fetch 0 }) (fun t => (t.fault, t.pc)) = some (some ⟨0, 0xDF⟩, 1) := by decide

theorem test_undefB :
    after (step { placed 0xB0 with cyc := .fetch 0 }) State.fault = some (some ⟨0, 0xB0⟩) := by decide

theorem test_undefC :
    after (step { placed 0xC0 with cyc := .fetch 0 }) State.fault = some (some ⟨0, 0xC0⟩) := by decide

/-- R133: no execute phase. -/
theorem test_undef_has_no_execute_phase :
    refusedWith (exec (.undef9 0) (based (.ex1 .nop 0))) (.noExecutePhase "UNDEF_9") = true := by decide

/-- V-T2: every further call on a faulted machine returns the fault and changes nothing. -/
theorem test_faulted_machine_is_frozen :
    advance chosen { based (.fetch 1) with pc := 2, fault := some ⟨1, 0x90⟩ }
      = ({ based (.fetch 1) with pc := 2, fault := some ⟨1, 0x90⟩ }, .fault (.undefinedOpcode ⟨1, 0x90⟩)) := by decide

/-- V-T1: every further call on a halted machine returns halted and changes nothing. -/
theorem test_halted_machine_is_frozen :
    advance chosen { based (.ex1 .hlt 0) with pc := 1, halt := true }
      = ({ based (.ex1 .hlt 0) with pc := 1, halt := true }, .halted) := by decide

/-- The placed word is the next one fetched. -/
theorem test_withFetchWord_runs_it :
    after (step (State.reset.withFetchWord 8 0x5F)) (fun t => (t.cyc, t.pc)) = some (.ex1 .ldi 15, 1) := by decide

/-! ## The host's operations -/

/-- V-T4. -/
theorem test_load_of_15_bytes :
    faultsWith (load (List.replicate 15 0x00) State.reset) (.imageLength 15) = true := by decide

/-- V-T5. -/
theorem test_load_is_verbatim :
    after (load [0, 1, 2, 3, 4, 5, 6, 7, 8, 9, 10, 11, 12, 13, 14, 15] State.reset)
      (fun t => [t.memRead 0, t.memRead 7, t.memRead 15]) = some [0, 7, 15] := by decide

/-- U9: a second load is refused. -/
theorem test_second_load_is_refused :
    refusedWith (load (List.replicate 16 0x00) (based .latchPC)) .loadNotFresh = true := by decide

/-- V-H1 under `run()`: three calls. -/
theorem test_run_of_hlt : (run chosen 3 (placed 0xF0)).2 = .halted ∧ (run chosen 2 (placed 0xF0)).2 = .outOfFuel := by decide

/-! ## Witnesses: the hypotheses of each statement are met, each clause at a boundary of its range -/

/-- Execution states of an instruction that every clause of its statement asks for. -/
abbrev InstrWitness (m : Opcode) (i : Instr) : Prop :=
  (based (.ex1 m 15)).cyc = .ex1 m 15 ∧ (based (.ex2 m 15)).cyc = .ex2 m 15 ∧ (based (.ex3 m 0xFF)).cyc = .ex3 m 0xFF ∧
  (placed (encode i)).mem.wf = true ∧ (placed (encode i)).terminal = false ∧ (placed (encode i)).cyc = .latchPC ∧
  (placed (encode i)).memRead (placed (encode i)).pc = encode i

/-- A machine that is not terminal, in each phase. -/
abbrev PhaseWitness : Prop :=
  (based .latchPC).terminal = false ∧ (based (.fetch 0)).terminal = false ∧ (based (.ex1 .jc 15)).terminal = false ∧
  (based (.ex2 .sta 0)).terminal = false ∧ (based (.ex3 .sub 0xFF)).terminal = false

theorem witness_EveryOpcodeMapRoundTrips :
    opcodeMapWellFormed defaultOpc = true ∧ decodeUnder defaultOpc 0x8F = .instr .jz 15 ∧
    decodeUnder defaultOpc 0x90 = .invalid 9 0 ∧ decodeUnder defaultOpc 0xDF = .invalid 13 15 ∧
    decodeUnder defaultOpc 0xE0 = .instr .out 0 := by decide

theorem witness_MemWriteChangesOneCell :
    ({ based .latchPC with mem := [(0, 0x01), (15, 0xFF)] } : State).mem.wf = true := by decide

theorem witness_CanonicalMemoriesAreEqualWhenTheyReadAlike :
    Memory.wf [(0, 0x01), (15, 0xFF)] = true ∧
    ∀ p, Memory.read [(0, 0x01), (15, 0xFF)] p = Memory.read (Memory.write [(0, 0x01)] 15 0xFF) p := by decide

theorem witness_StepRunsTheDecodedInstruction :
    PhaseWitness ∧ decodeTableWord 8 ((placed 0x1F).memRead 0).toNat = some (.lda 15) := by decide

theorem witness_LatchPCSnapshotsThePC : (based .latchPC).terminal = false ∧ (based .latchPC).cyc = .latchPC := by decide

theorem witness_FetchAdvancesThePCAndDecodes :
    ({ based (.fetch 15) with pc := 15 } : State).terminal = false ∧ (based (.fetch 15)).cyc = .fetch 15 ∧
    ({ placed 0x90 with cyc := .fetch 0 } : State).terminal = false := by decide

theorem witness_ExecuteOneTransition :
    chosen.phasePolicy = .uniform5 ∧ (based (.ex1 .hlt 15)).terminal = false ∧
    (based (.ex1 .hlt 15)).cyc = .ex1 .hlt 15 := by decide

theorem witness_ExecuteTwoTransition :
    chosen.phasePolicy = .uniform5 ∧ (based (.ex2 .sta 0)).terminal = false ∧ (based (.ex2 .sta 0)).cyc = .ex2 .sta 0 ∧
    Opcode.sta ≠ .hlt := by decide

theorem witness_ExecuteThreeTransition :
    (based (.ex3 .sub 0xFF)).terminal = false ∧ (based (.ex3 .sub 0xFF)).cyc = .ex3 .sub 0xFF ∧
    ∀ m w, (based (.ex2 .sub 15)).cyc ≠ .ex3 m w :=
  ⟨by decide, by decide, fun _ _ h => by simp [based] at h⟩

theorem witness_EarlyExitChangesOnlyTheNextPhase :
    chosen.phasePolicy = .uniform5 ∧ PhaseWitness ∧ Opcode.out ∈ [Opcode.nop, .ldi, .jmp, .jc, .jz, .out] ∧
    Opcode.sta ∈ [Opcode.lda, .sta] ∧ Opcode.add ∉ [Opcode.nop, .ldi, .jmp, .jc, .jz, .out] ∧
    Opcode.add ∉ [Opcode.lda, .sta] := by decide

theorem witness_TerminalMachinesAreFrozen :
    ({ based (.ex1 .hlt 0) with halt := true } : State).terminal = true ∧
    ({ based (.fetch 0) with fault := some ⟨0, 0x90⟩ } : State).terminal = true := by decide

theorem witness_FlagsComeFromTheFlagUnitAlone :
    (0xFF : Byte) ≠ 0 ∧ (based (.ex3 .add 0x01)).terminal = false ∧ (based (.ex3 .sub 0x01)).terminal = false ∧
    (advance chosen { based (.ex3 .add 0x01) with flags := .carry }).1.flags = .none ∧
    (∀ w, (based (.ex3 .lda 0xFF)).cyc ≠ .ex3 .add w) ∧ ∀ w, (based (.ex3 .lda 0xFF)).cyc ≠ .ex3 .sub w :=
  ⟨by decide, by decide, by decide, by decide, nofun, nofun⟩

theorem witness_AddOutcomes :
    (0x00 : Byte).toNat + (0x00 : Byte).toNat = 0 ∧ (0xFF : Byte).toNat + (0x01 : Byte).toNat = 256 ∧
    (0xFF : Byte).toNat + (0xFF : Byte).toNat > 256 ∧ (0xFF : Byte).toNat + (0x02 : Byte).toNat > 256 ∧
    0 < (0xFF : Byte).toNat + (0x00 : Byte).toNat ∧ (0xFF : Byte).toNat + (0x00 : Byte).toNat < 256 := by decide

theorem witness_SubOutcomes :
    (0x80 : Byte) = 0x80 ∧ (0xFE : Byte).toNat < (0xFF : Byte).toNat ∧ (0xFE : Byte) ≠ 0 ∧
    (0x00 : Byte).toNat < (0x01 : Byte).toNat := by decide

theorem witness_NopOnlyAdvancesThePC : InstrWitness .nop (.nop 15) := by decide
theorem witness_LdaLoadsTheAccumulator : InstrWitness .lda (.lda 0) := by decide
theorem witness_AddAddsTheCellToTheAccumulator : InstrWitness .add (.add 0) := by decide
theorem witness_SubSubtractsTheCellFromTheAccumulator : InstrWitness .sub (.sub 15) := by decide
theorem witness_StaStoresTheAccumulator : InstrWitness .sta (.sta 0) := by decide
theorem witness_LdiLoadsTheLiteral : InstrWitness .ldi (.ldi 15) := by decide
theorem witness_JmpJumps : InstrWitness .jmp (.jmp 15) := by decide
theorem witness_JcJumpsExactlyOnCarry : InstrWitness .jc (.jc 15) := by decide
theorem witness_JzJumpsExactlyOnZero : InstrWitness .jz (.jz 0) := by decide
theorem witness_OutEmitsTheAccumulator : InstrWitness .out (.out 9) := by decide
theorem witness_HltHaltsOnTheThirdStep : InstrWitness .hlt (.hlt 11) := by decide

theorem witness_ReservedRowsTakeTheFaultAtFetch :
    (Instr.undefD 15, "UNDEF_D") ∈ [(Instr.undef9 15, "UNDEF_9"), (.undefA 15, "UNDEF_A"), (.undefB 15, "UNDEF_B"),
      (.undefC 15, "UNDEF_C"), (.undefD 15, "UNDEF_D")] ∧
    (based (.fetch 15)).cyc = .fetch 15 ∧ InstrWitness .nop (.undefD 15) ∧ InstrWitness .nop (.undef9 0) := by decide

theorem witness_IgnoredOperandsChangeNothing :
    after (exec (.nop 0) (based (.ex1 .nop 0))) State.cyc = some (.ex2 .nop 0) ∧
    after (exec (.out 0) (based (.ex1 .out 0))) State.cyc = some (.ex2 .out 0) ∧
    after (exec (.hlt 0) (based (.ex1 .hlt 0))) State.halt = some true ∧
    (Cyc.ex2 .nop 0).sameButPayload (.ex2 .nop 15) = true ∧ (Cyc.ex2 .nop 0).sameButPayload (.ex3 .nop 0) = false ∧
    (Cyc.ex2 .nop 0).sameButPayload (.ex2 .out 0) = false := by decide

theorem witness_ExecLeavesMemory :
    after (exec (.sta 0) { based (.ex2 .sta 0) with a := 0xFF }) State.mem = some [(0, 0xFF)] ∧
    (based (.ex2 .sta 0)).mem.wf = true ∧ effectiveAddress 15 = 15 ∧
    after (exec (.lda 0) (based (.ex2 .lda 0))) State.mem = some [] := by decide

theorem witness_ExecLeavesRegisters :
    after (exec (.ldi 1) (based (.ex1 .ldi 1))) State.a = some 0x01 ∧
    after (exec (.sub 0) (based (.ex3 .sub 1))) State.flags = some .carry ∧
    after (exec (.jmp 15) (based (.ex1 .jmp 15))) State.pc = some 15 := by decide

theorem witness_ExecLeavesLatchesAndOutput :
    after (exec (.hlt 0) (based (.ex1 .hlt 0))) State.halt = some true ∧
    after (exec (.undefC 0) (based (.fetch 0))) State.fault = some (some ⟨0, 0x00⟩) ∧
    after (exec (.out 0) (based (.ex1 .out 0))) State.out = some [0x00] ∧
    after (exec (.nop 0) State.reset) State.fresh = some false := by decide

theorem witness_AccumulatorWritersAndReaders :
    PhaseWitness ∧ (based (.ex2 .sta 0)).mem.wf = true ∧ (based (.ex1 .out 15)).terminal = false ∧
    (based (.ex1 .out 15)).cyc = .ex1 .out 15 ∧ (∀ n, (based .latchPC).cyc ≠ .ex2 .sta n) ∧
    (∀ n, (based .latchPC).cyc ≠ .ex1 .out n) ∧
    (∀ w, (based .latchPC).cyc ≠ .ex3 .add w) ∧ ∀ w, (based .latchPC).cyc ≠ .ex3 .sub w :=
  ⟨by decide, by decide, by decide, rfl, nofun, nofun, nofun, nofun⟩

theorem witness_ProgramCounterWritersAndReaders :
    PhaseWitness ∧ (based .latchPC).cyc = .latchPC ∧ (based (.ex1 .jmp 0)).cyc ≠ .latchPC ∧
    ∀ p, (based (.ex1 .jmp 0)).cyc ≠ .fetch p := ⟨by decide, rfl, nofun, nofun⟩

theorem witness_FlagsWritersAndReaders :
    PhaseWitness ∧ (based (.ex1 .jc 15)).cyc = .ex1 .jc 15 ∧ (based (.ex1 .jz 0)).terminal = false ∧
    (based (.ex1 .jz 0)).cyc = .ex1 .jz 0 ∧ (∀ n, (based (.ex3 .add 0)).cyc ≠ .ex1 .jc n) ∧
    ∀ n, (based (.ex3 .add 0)).cyc ≠ .ex1 .jz n :=
  ⟨by decide, rfl, by decide, rfl, nofun, nofun⟩

theorem witness_HaltLatchIsSticky :
    (based (.ex1 .hlt 0)).halt = false ∧ (advance chosen (based (.ex1 .hlt 0))).1.halt = true ∧
    ({ based (.ex1 .hlt 0) with halt := true } : State).fault = none ∧
    after (load (List.replicate 16 0x00) State.reset) State.halt = some false := by decide

theorem witness_MemoryWriters : (based (.ex2 .sta 15)).mem.wf = true := by decide

theorem witness_MemoryIsAccessedInTwoPhases :
    Memory.read [(15, 0x01)] 0 = (based (.fetch 0)).memRead 0 ∧
    Memory.read [(15, 0x01)] 0 = (based (.ex2 .sub 0)).memRead 0 ∧ Memory.wf [(15, 0x01)] = true := by decide

theorem witness_FaultIsRaisedExactlyByAnUndefinedFetch :
    ({ placed 0xD0 with cyc := .fetch 0 } : State).terminal = false ∧
    after (step { placed 0xD0 with cyc := .fetch 0 }) State.fault = some (some ⟨0, 0xD0⟩) ∧
    after (step { placed 0xE0 with cyc := .fetch 0 }) State.fault = some none := by decide

theorem witness_DefinedInstructionsNeverFault :
    after (step { placed 0x90 with cyc := .fetch 0 }) State.fault ≠ some (placed 0x90).fault := by decide

theorem witness_StoresAreSeenByLaterFetches :
    (based (.ex2 .sta 15)).mem.wf = true ∧ (based (.ex2 .sta 15)).terminal = false ∧
    after (step { based (.ex2 .sta 15) with a := 0xF0 }) State.mem = some [(15, 0xF0)] ∧
    ({ based (.fetch 15) with mem := [(15, 0xF0)] } : State).current = some (.hlt 0) ∧
    ∀ p, (based (.ex2 .sta 15)).cyc ≠ .fetch p := ⟨by decide, by decide, by decide, by decide, nofun⟩

theorem witness_StepKeepsTheInvariant :
    State.reset.Inv ∧ after (step State.reset) State.cyc = some (.fetch 0) :=
  ⟨⟨by decide, by decide, fun _ => rfl⟩, by decide⟩

theorem witness_ReachableStatesMeetTheInvariant : Reachable (State.reset.latchPC) := .step .reset rfl

theorem witness_CallsComeToTheInstructionsNetEffect :
    (placed 0x2F).terminal = false ∧ (placed 0x2F).cyc = .latchPC ∧ (placed 0x9F).terminal = false := by decide

theorem witness_CallCountsAreExact :
    (placed 0xF0).terminal = false ∧ (placed 0xF0).cyc = .latchPC ∧
    callsOf chosen.phasePolicy (decodeUnder chosen.opc ((placed 0xF0).memRead (placed 0xF0).pc)) = 3 ∧
    callsOf .earlyExit (decodeUnder chosen.opc ((placed 0x4F).memRead 0)) = 4 := by decide

theorem witness_InterpreterAndSimulatorHaltAlike :
    (placed 0xF0).terminal = false ∧ (placed 0xF0).cyc = .latchPC ∧ (instrStepN chosen 1 (placed 0xF0)).halt = true := by
  decide

theorem witness_PhasePolicyDoesNotChangeHowRunsEnd :
    (placed 0xF0).terminal = false ∧ (placed 0xF0).cyc = .latchPC ∧ (run chosen 3 (placed 0xF0)).2 ≠ .outOfFuel ∧
    (run chosen 2 (placed 0x90)).2 ≠ .outOfFuel := by decide

theorem witness_LoadTakesSixteenBytesOnce :
    (based .latchPC).fresh = false ∧ State.reset.fresh = true ∧ (List.replicate 17 (0x00 : Byte)).length ≠ 16 ∧
    (List.replicate 16 (0xFF : Byte)).length = 16 ∧ State.reset.mem.wf = true := by decide

theorem witness_RunsEndWellExactlyWhenTheyHalt :
    ({ placed 0xF0 with fresh := false } : State).Inv ∧ (run chosen 3 (placed 0xF0)).2 = .halted ∧
    (placed 0x90).Inv ∧ (run chosen 2 (placed 0x90)).2 = .fault (.undefinedOpcode ⟨0, 0x90⟩) :=
  ⟨⟨by decide, by decide, nofun⟩, by decide, ⟨by decide, by decide, nofun⟩, by decide⟩

end Sys2Proof.Tests
end

section
/-! The accumulator, the flags and the halt latch (R22, R24, R26): who writes each, and who reads it. Writers: one lemma per
execute phase says what an instruction's own work leaves of the field. Readers: a call is followed on two machines that
differ in one field. -/

namespace Sys2Proof.Machine

variable {c : Config} {s t : State}

/-! ### What the work of each execute phase does to one field -/

/-- A conditional jump, taken or not, as one write of `PC` (R122). -/
theorem ex1Work_jc (n : Nibble) (s : State) :
    ex1Work .jc n s = s.setPc (if s.flags.c = true then n else s.pc) := by
  change (if s.flags.c = true then s.setPc n else s) = _
  split <;> rfl

/-- The same of JZ (R123). -/
theorem ex1Work_jz (n : Nibble) (s : State) :
    ex1Work .jz n s = s.setPc (if s.flags.z = true then n else s.pc) := by
  change (if s.flags.z = true then s.setPc n else s) = _
  split <;> rfl

theorem ex1Work_a (m : Opcode) (n : Nibble) (s : State) :
    (ex1Work m n s).a = if m = .ldi then zext8 n else s.a := by
  cases m with
  | jc => rw [ex1Work_jc]; rfl
  | jz => rw [ex1Work_jz]; rfl
  | _ => rfl

theorem ex2Work_a (m : Opcode) (n : Nibble) (s : State) :
    (ex2Work m n s).a = if m = .lda then s.memRead n else s.a := by
  cases m <;> rfl

@[simp] theorem ex1Work_flags (m : Opcode) (n : Nibble) (s : State) : (ex1Work m n s).flags = s.flags := by
  cases m with
  | jc => rw [ex1Work_jc]; rfl
  | jz => rw [ex1Work_jz]; rfl
  | _ => rfl

@[simp] theorem ex2Work_flags (m : Opcode) (n : Nibble) (s : State) : (ex2Work m n s).flags = s.flags := by
  cases m <;> rfl

theorem ex1Work_halt {m : Opcode} (hm : m ≠ .hlt) (n : Nibble) (s : State) : (ex1Work m n s).halt = s.halt := by
  cases m with
  | hlt => exact absurd rfl hm
  | jc => rw [ex1Work_jc]; rfl
  | jz => rw [ex1Work_jz]; rfl
  | _ => rfl

@[simp] theorem ex2Work_halt (m : Opcode) (n : Nibble) (s : State) : (ex2Work m n s).halt = s.halt := by
  cases m <;> rfl

@[simp] theorem ex3Work_halt (c : Config) (m : Opcode) (w : Byte) (s : State) : (ex3Work c m w s).halt = s.halt := by
  cases m <;> rfl

/-! ### A call in one execute phase -/

theorem advance_of_ex1_work {m : Opcode} {n : Nibble} (h : s.terminal = false) (hc : s.cyc = .ex1 m n) (hm : m ≠ .hlt) :
    advance c s = ((ex1Work m n s).setCyc (afterEx1 c.phasePolicy m n), .running) := by
  rw [advance_of_ex1 h hc, transition_ex1 _ _ _ hc, if_neg hm, if_neg hm]

theorem advance_of_ex1_hlt {n : Nibble} (h : s.terminal = false) (hc : s.cyc = .ex1 .hlt n) :
    advance c s = (s.setHalt, .halted) := by
  rw [advance_of_ex1 h hc, transition_ex1 _ _ _ hc, if_pos rfl, if_pos rfl]

theorem advance_of_ex2_work {m : Opcode} {n : Nibble} (h : s.terminal = false) (hc : s.cyc = .ex2 m n) :
    advance c s = ((ex2Work m n s).setCyc (afterEx2 c.phasePolicy m (ex2Carry m n s)), .running) := by
  rw [advance_of_ex2 h hc, transition_ex2 _ _ _ hc]

theorem advance_of_ex3_work {m : Opcode} {w : Byte} (h : s.terminal = false) (hc : s.cyc = .ex3 m w) :
    advance c s = ((ex3Work c m w s).setCyc .latchPC, .running) := by
  rw [advance_of_ex3 h hc, transition_ex3 _ _ _ hc]

theorem ex2Carry_congr {n : Nibble} (m : Opcode) (h : t.memRead n = s.memRead n) :
    ex2Carry m n t = ex2Carry m n s := by
  unfold ex2Carry; rw [h]

theorem State.memRead_memWrite_same (hw : s.mem.wf = true) (n : Nibble) (v : Byte) : (s.memWrite n v).memRead n = v :=
  (Memory.lookup_insert hw _ _ v).trans (if_pos rfl)

/-! ### Fields that only the execute phases read -/

/-- `set` overwrites a part of the state that a call does not consult to choose its transition, and that LatchPC and Fetch
carry along unread. -/
structure ReadOnlyByExecute {α : Type} (set : State → α → State) : Prop where
  halt : ∀ s v, (set s v).halt = s.halt
  fault : ∀ s v, (set s v).fault = s.fault
  cyc : ∀ s v, (set s v).cyc = s.cyc
  memRead : ∀ s v q, (set s v).memRead q = s.memRead q
  setCyc : ∀ s v k, (set s v).setCyc k = set (s.setCyc k) v
  latchPC : ∀ s v, (set s v).latchPC = set s.latchPC v
  fetchDefined : ∀ s v m n, (set s v).fetchDefined m n = set (s.fetchDefined m n) v
  takeUndefinedOpcode : ∀ s v p, (set s v).takeUndefinedOpcode p = set (s.takeUndefinedOpcode p) v

theorem readOnlyByExecute_setA : ReadOnlyByExecute State.setA where
  halt _ _ := rfl
  fault _ _ := rfl
  cyc _ _ := rfl
  memRead _ _ _ := rfl
  setCyc _ _ _ := rfl
  latchPC _ _ := rfl
  fetchDefined _ _ _ _ := rfl
  takeUndefinedOpcode _ _ _ := rfl

theorem readOnlyByExecute_setFlags : ReadOnlyByExecute State.setFlags where
  halt _ _ := rfl
  fault _ _ := rfl
  cyc _ _ := rfl
  memRead _ _ _ := rfl
  setCyc _ _ _ := rfl
  latchPC _ _ := rfl
  fetchDefined _ _ _ _ := rfl
  takeUndefinedOpcode _ _ _ := rfl

/-- If the work of the phase in progress ignores such a field, apart from what it leaves there, so does the whole call. -/
theorem advance_ignores {α : Type} {set : State → α → State} (hset : ReadOnlyByExecute set) (v : α)
    (hex1 : ∀ m n, s.cyc = .ex1 m n → ∃ u, ex1Work m n (set s v) = set (ex1Work m n s) u)
    (hex2 : ∀ m n, s.cyc = .ex2 m n → ∃ u, ex2Work m n (set s v) = set (ex2Work m n s) u)
    (hex3 : ∀ m w, s.cyc = .ex3 m w → ∃ u, ex3Work c m w (set s v) = set (ex3Work c m w s) u) :
    ∃ u, advance c (set s v) = (set (advance c s).1 u, (advance c s).2) := by
  have hhalt := hset.halt s v
  have hfault := hset.fault s v
  have hcyc := hset.cyc s v
  cases hf : s.fault with
  | some r => exact ⟨v, by rw [advance_of_fault hf, advance_of_fault (hfault.trans hf)]⟩
  | none =>
    cases hh : s.halt with
    | true => exact ⟨v, by rw [advance_of_halt hf hh, advance_of_halt (hfault.trans hf) (hhalt.trans hh)]⟩
    | false =>
      have h : s.terminal = false := not_terminal_iff.mpr ⟨hh, hf⟩
      have h' : (set s v).terminal = false := not_terminal_iff.mpr ⟨hhalt.trans hh, hfault.trans hf⟩
      cases hc : s.cyc with
      | latchPC =>
        exact ⟨v, by rw [advance_of_latchPC h hc, advance_of_latchPC h' (hcyc.trans hc), hset.latchPC]⟩
      | fetch p =>
        have hread := hset.memRead s v p
        refine ⟨v, ?_⟩
        cases hd : decodeUnder c.opc (s.memRead p) with
        | instr m n =>
          rw [advance_of_fetch_instr h hc hd, advance_of_fetch_instr h' (hcyc.trans hc) (by rw [hread, hd]),
            hset.fetchDefined]
        | invalid op n =>
          rw [advance_of_fetch_invalid h hc hd, advance_of_fetch_invalid h' (hcyc.trans hc) (by rw [hread, hd]),
            hset.takeUndefinedOpcode, hread]
      | ex1 m n =>
        obtain ⟨u, hu⟩ := hex1 m n hc
        refine ⟨u, ?_⟩
        by_cases hm : m = .hlt
        · subst hm
          rw [advance_of_ex1_hlt h hc, advance_of_ex1_hlt h' (hcyc.trans hc)]
          exact congrArg (·, Result.halted) hu
        · rw [advance_of_ex1_work h hc hm, advance_of_ex1_work h' (hcyc.trans hc) hm, hu, hset.setCyc]
      | ex2 m n =>
        obtain ⟨u, hu⟩ := hex2 m n hc
        exact ⟨u, by rw [advance_of_ex2_work h hc, advance_of_ex2_work h' (hcyc.trans hc), hu,
          ex2Carry_congr m (hset.memRead s v n), hset.setCyc]⟩
      | ex3 m w =>
        obtain ⟨u, hu⟩ := hex3 m w hc
        exact ⟨u, by rw [advance_of_ex3_work h hc, advance_of_ex3_work h' (hcyc.trans hc), hu, hset.setCyc]⟩

/-! ### The accumulator -/

theorem ex1Work_ignores_a {m : Opcode} (hm : m ≠ .out) (n : Nibble) (s : State) (v : Byte) :
    ∃ u, ex1Work m n (s.setA v) = (ex1Work m n s).setA u := by
  cases m with
  | out => exact absurd rfl hm
  | ldi => exact ⟨zext8 n, rfl⟩
  | jc => exact ⟨v, by rw [ex1Work_jc, ex1Work_jc]; rfl⟩
  | jz => exact ⟨v, by rw [ex1Work_jz, ex1Work_jz]; rfl⟩
  | _ => exact ⟨v, rfl⟩

theorem ex2Work_ignores_a {m : Opcode} (hm : m ≠ .sta) (n : Nibble) (s : State) (v : Byte) :
    ∃ u, ex2Work m n (s.setA v) = (ex2Work m n s).setA u := by
  cases m with
  | sta => exact absurd rfl hm
  | lda => exact ⟨s.memRead n, rfl⟩
  | _ => exact ⟨v, rfl⟩

theorem ex3Work_ignores_a {m : Opcode} (hadd : m ≠ .add) (hsub : m ≠ .sub) (c : Config) (w : Byte) (s : State)
    (v : Byte) : ∃ u, ex3Work c m w (s.setA v) = (ex3Work c m w s).setA u := by
  cases m with
  | add => exact absurd rfl hadd
  | sub => exact absurd rfl hsub
  | _ => exact ⟨v, rfl⟩

/-- Settles O39: the value written is read off the work of each phase, and the readers are the four phases whose work does
not commute with another accumulator. -/
theorem accumulatorWritersAndReaders : Obligations.AccumulatorWritersAndReaders := by
  intro c s
  refine ⟨fun h => ?writers, fun n h hw hc => ?sta, fun n h hc => ?out, fun hsta hout hadd hsub v => ?readers⟩
  case writers =>
    rcases advance_cases c h with ⟨hc, ha⟩ | ⟨p, m, n, hc, -, ha⟩ | ⟨p, op, n, hc, -, ha⟩ | ⟨n, hc, ha⟩ |
      ⟨m, n, hc, -, ha⟩ | ⟨m, n, hc, ha⟩ | ⟨m, w, hc, ha⟩
    · rw [ha, hc]; rfl
    · rw [ha, hc]; rfl
    · rw [ha, hc]; rfl
    · rw [ha, hc]; rfl
    · rw [ha, hc, State.setCyc_a, ex1Work_a]
      cases m <;> rfl
    · rw [ha, hc, State.setCyc_a, ex2Work_a]
      cases m <;> rfl
    · rw [ha, hc, State.setCyc_a]
      cases m with
      | add => exact aluAdd_fst s.a w
      | sub => exact aluSub_fst c.subCarry s.a w
      | _ => rfl
  case sta =>
    rw [advance_of_ex2_work h hc]
    exact State.memRead_memWrite_same hw n s.a
  case out =>
    rw [advance_of_ex1_work h hc (by decide)]
    rfl
  case readers =>
    refine advance_ignores readOnlyByExecute_setA v (fun m n hc => ?_) (fun m n hc => ?_) (fun m w hc => ?_)
    · exact ex1Work_ignores_a (fun hm => hout n (hm ▸ hc)) n s v
    · exact ex2Work_ignores_a (fun hm => hsta n (hm ▸ hc)) n s v
    · exact ex3Work_ignores_a (fun hm => hadd w (hm ▸ hc)) (fun hm => hsub w (hm ▸ hc)) c w s v

/-! ### The flags -/

theorem Flags.z_eq_true_iff (f : Flags) : f.z = true ↔ f = .zero := beq_iff_eq

theorem Flags.c_eq_true_iff (f : Flags) : f.c = true ↔ f = .carry := beq_iff_eq

theorem ex1Work_ignores_flags {m : Opcode} (hjc : m ≠ .jc) (hjz : m ≠ .jz) (n : Nibble) (s : State) (f : Flags) :
    ex1Work m n (s.setFlags f) = (ex1Work m n s).setFlags f := by
  cases m with
  | jc => exact absurd rfl hjc
  | jz => exact absurd rfl hjz
  | _ => rfl

theorem ex2Work_ignores_flags (m : Opcode) (n : Nibble) (s : State) (f : Flags) :
    ex2Work m n (s.setFlags f) = (ex2Work m n s).setFlags f := by
  cases m <;> rfl

theorem ex3Work_ignores_flags (c : Config) (m : Opcode) (w : Byte) (s : State) (f : Flags) :
    ∃ g, ex3Work c m w (s.setFlags f) = (ex3Work c m w s).setFlags g := by
  cases m with
  | add => exact ⟨(aluAdd s.a w).2, rfl⟩
  | sub => exact ⟨(aluSub c.subCarry s.a w).2, rfl⟩
  | _ => exact ⟨f, rfl⟩

/-- Settles O41: no work before Execute-3 writes the flags, and JC and JZ alone have a work that does not commute with
other flags. -/
theorem flagsWritersAndReaders : Obligations.FlagsWritersAndReaders := by
  refine ⟨fun f => ⟨f.z_eq_true_iff, f.c_eq_true_iff, ?exclusive⟩, fun c s =>
    ⟨fun h => ?writers, fun n h hc => ?jc, fun n h hc => ?jz, fun hjc hjz f => ?readers⟩⟩
  case exclusive =>
    rw [f.z_eq_true_iff, f.c_eq_true_iff]
    rintro ⟨rfl, hcarry⟩
    cases hcarry
  case writers =>
    rcases advance_cases c h with ⟨hc, ha⟩ | ⟨p, m, n, hc, -, ha⟩ | ⟨p, op, n, hc, -, ha⟩ | ⟨n, hc, ha⟩ |
      ⟨m, n, hc, -, ha⟩ | ⟨m, n, hc, ha⟩ | ⟨m, w, hc, ha⟩
    · rw [ha, hc]; rfl
    · rw [ha, hc]; rfl
    · rw [ha, hc]; rfl
    · rw [ha, hc]; rfl
    · rw [ha, hc]; exact ex1Work_flags m n s
    · rw [ha, hc]; exact ex2Work_flags m n s
    · rw [ha, hc]; cases m <;> rfl
  case jc =>
    rw [advance_of_ex1_work h hc (by decide), ex1Work_jc]
    rfl
  case jz =>
    rw [advance_of_ex1_work h hc (by decide), ex1Work_jz]
    rfl
  case readers =>
    refine advance_ignores readOnlyByExecute_setFlags f (fun m n hc => ?_) (fun m n _ => ?_) (fun m w _ => ?_)
    · exact ⟨f, ex1Work_ignores_flags (fun hm => hjc n (hm ▸ hc)) (fun hm => hjz n (hm ▸ hc)) n s f⟩
    · exact ⟨f, ex2Work_ignores_flags m n s f⟩
    · exact ex3Work_ignores_flags c m w s f

/-! ### The halt latch -/

theorem terminal_of_halt (h : s.halt = true) : s.terminal = true := by
  unfold State.terminal; rw [h, Bool.true_or]

/-- A terminal machine is the same after any number of calls. -/
theorem advanceN_of_terminal (h : s.terminal = true) (k : Nat) : advanceN c k s = s := by
  induction k with
  | zero => rfl
  | succ k ih => rw [advanceN, advance_of_terminal h, ih]

/-- Outside Execute-1 of HLT a call leaves the latch (R26), whether the machine is terminal or not. -/
theorem advance_halt (hc : ∀ n, s.cyc ≠ .ex1 .hlt n) : (advance c s).1.halt = s.halt := by
  cases h : s.terminal with
  | true => rw [advance_of_terminal h]
  | false =>
    rcases advance_cases c h with ⟨-, ha⟩ | ⟨p, m, n, -, -, ha⟩ | ⟨p, op, n, -, -, ha⟩ | ⟨n, hn, -⟩ |
      ⟨m, n, -, hm, ha⟩ | ⟨m, n, -, ha⟩ | ⟨m, w, -, ha⟩
    · rw [ha]; rfl
    · rw [ha]; rfl
    · rw [ha]; rfl
    · exact absurd hn (hc n)
    · rw [ha]; exact ex1Work_halt hm n s
    · rw [ha]; exact ex2Work_halt m n s
    · rw [ha]; exact ex3Work_halt c m w s

/-- A load that is admitted writes memory and ends the machine's being fresh, and does nothing else. -/
theorem eq_of_load_next {bytes : List Byte} (h : load bytes s = .next t) :
    t = { s.touch with mem := Memory.fill s.mem 0 bytes } := by
  unfold load at h
  split at h
  · split at h
    · cases h; rfl
    · cases h
  · cases h

/-- Settles O42: outside Execute-1 of HLT a call keeps the latch, and a machine with the latch set is terminal. -/
theorem haltLatchIsSticky : Obligations.HaltLatchIsSticky := by
  refine ⟨rfl, fun c s h h' => ?set, fun c s k h => ⟨?frozen, fun hf => ?halted⟩, fun bytes s t h => ?load⟩
  case set =>
    by_contra hc
    rw [advance_halt (not_exists.mp hc), h] at h'
    cases h'
  case frozen => exact advanceN_of_terminal (terminal_of_halt h) k
  case halted => rw [advance_of_halt hf h]
  case load => rw [eq_of_load_next h]; rfl

end Sys2Proof.Machine
end

section
/-! Memory (R42, R43): one write changes one cell, and a call reads at most one cell. Writers: each phase's own work leaves
the memory, STA's Execute-2 apart. Readers: a call is followed on two machines that differ in memory alone. -/

namespace Sys2Proof.Machine

variable {c : Config} {s : State}

/-! ### One write -/

/-- What every cell reads after a write to one of them (R42). -/
theorem State.memRead_memWrite (hw : s.mem.wf = true) (p q : Nibble) (v : Byte) :
    (s.memWrite p v).memRead q = if q = p then v else s.memRead q := by
  have hread := Memory.lookup_insert hw p.toNat q.toNat v
  simp only [BitVec.toNat_inj] at hread
  exact hread

/-- Settles O7: the read after the write is `State.memRead_memWrite`, and `MemWrite` names no field but the memory. -/
theorem memWriteChangesOneCell : Obligations.MemWriteChangesOneCell := fun _ p q v hw =>
  ⟨State.memRead_memWrite hw p q v, rfl⟩

/-! ### A machine with another memory -/

/-- The machine with all its cells replaced: what it is compared with to see which cells a call reads. -/
def State.setMem (s : State) (m : Memory) : State := { s with mem := m }

@[simp] theorem State.setMem_terminal (m : Memory) : (s.setMem m).terminal = s.terminal := rfl
@[simp] theorem State.setMem_result (m : Memory) : (s.setMem m).result = s.result := rfl
@[simp] theorem State.setMem_memRead (m : Memory) (q : Nibble) : (s.setMem m).memRead q = Memory.read m q := rfl

/-! ### The work of each execute phase -/

theorem ex1Work_setMem (m : Opcode) (n : Nibble) (s : State) (mem : Memory) :
    ex1Work m n (s.setMem mem) = (ex1Work m n s).setMem mem := by
  cases m with
  | jc => rw [ex1Work_jc, ex1Work_jc]; rfl
  | jz => rw [ex1Work_jz, ex1Work_jz]; rfl
  | _ => rfl

/-- Execute-2 reads no memory but the cell that LDA moves to the accumulator (R43, R85). -/
theorem ex2Work_setMem {m : Opcode} {n : Nibble} {mem : Memory} (hread : m = .lda → Memory.read mem n = s.memRead n) :
    ∃ mem', ex2Work m n (s.setMem mem) = (ex2Work m n s).setMem mem' := by
  cases m with
  | lda => exact ⟨mem, congrArg (s.setMem mem).setA (hread rfl)⟩
  | sta => exact ⟨Memory.write mem n s.a, rfl⟩
  | _ => exact ⟨mem, rfl⟩

theorem ex2Carry_setMem {m : Opcode} {n : Nibble} {mem : Memory}
    (hread : m = .lda ∨ m = .add ∨ m = .sub → Memory.read mem n = s.memRead n) :
    ex2Carry m n (s.setMem mem) = ex2Carry m n s := by
  cases m with
  | lda => exact hread (.inl rfl)
  | add => exact hread (.inr (.inl rfl))
  | sub => exact hread (.inr (.inr rfl))
  | _ => rfl

theorem ex3Work_setMem (c : Config) (m : Opcode) (w : Byte) (s : State) (mem : Memory) :
    ex3Work c m w (s.setMem mem) = (ex3Work c m w s).setMem mem := by
  cases m <;> rfl

@[simp] theorem ex1Work_mem (m : Opcode) (n : Nibble) (s : State) : (ex1Work m n s).mem = s.mem :=
  (congrArg State.mem (ex1Work_setMem m n s s.mem) :)

theorem ex2Work_mem (m : Opcode) (n : Nibble) (s : State) :
    (ex2Work m n s).mem = if m = .sta then Memory.write s.mem n s.a else s.mem := by
  cases m <;> rfl

@[simp] theorem ex3Work_mem (c : Config) (m : Opcode) (w : Byte) (s : State) : (ex3Work c m w s).mem = s.mem :=
  (congrArg State.mem (ex3Work_setMem c m w s s.mem) :)

/-! ### A call -/

/-- A call on a terminal machine returns what the call that ended it did (R81). -/
theorem advance_of_terminal_eq (h : s.terminal = true) : advance c s = (s, s.result) := by
  unfold State.result
  cases hf : s.fault with
  | some r => exact advance_of_fault hf
  | none =>
    have hh : s.halt = true := by simpa [State.terminal, hf] using h
    rw [advance_of_halt hf hh, hh]
    rfl

/-- Execute-2 of STA writes the accumulator to the operand's cell (R43). -/
theorem advance_mem_of_sta {n : Nibble} (h : s.terminal = false) (hc : s.cyc = .ex2 .sta n) :
    (advance c s).1.mem = Memory.write s.mem n s.a := by
  rw [advance_of_ex2_work h hc]
  rfl

/-- Every other call leaves the memory, and so does every call on a terminal machine (R43). -/
theorem advance_mem (hsta : ∀ n, s.terminal = false → s.cyc ≠ .ex2 .sta n) : (advance c s).1.mem = s.mem := by
  cases h : s.terminal with
  | true => rw [advance_of_terminal h]
  | false =>
    rcases advance_cases c h with ⟨-, ha⟩ | ⟨p, m, n, -, -, ha⟩ | ⟨p, op, n, -, -, ha⟩ | ⟨n, -, ha⟩ |
      ⟨m, n, -, -, ha⟩ | ⟨m, n, hc, ha⟩ | ⟨m, w, -, ha⟩
    · rw [ha]; rfl
    · rw [ha]; rfl
    · rw [ha]; rfl
    · rw [ha]; rfl
    · rw [ha]; exact ex1Work_mem m n s
    · have hm : m ≠ .sta := fun hm => hsta n h (hm ▸ hc)
      rw [ha, State.setCyc_mem, ex2Work_mem, if_neg hm]
    · rw [ha]; exact ex3Work_mem c m w s

/-- A call reads the cell at the snapshot in Fetch, the operand's cell in Execute-2 of LDA, ADD and SUB, and no other:
machines that agree there make the same transition, memory apart (R43). Memory is not `ReadOnlyByExecute`, since Fetch
consults it; so the two calls are compared phase by phase. -/
theorem advance_setMem {mem : Memory} (hfetch : ∀ p, s.cyc = .fetch p → Memory.read mem p = s.memRead p)
    (hex2 : ∀ m n, s.cyc = .ex2 m n → m = .lda ∨ m = .add ∨ m = .sub → Memory.read mem n = s.memRead n) :
    ∃ mem', advance c (s.setMem mem) = ((advance c s).1.setMem mem', (advance c s).2) := by
  cases h : s.terminal with
  | true =>
    have h' : (s.setMem mem).terminal = true := (s.setMem_terminal mem).trans h
    exact ⟨mem, by rw [advance_of_terminal_eq h, advance_of_terminal_eq h', s.setMem_result]⟩
  | false =>
    have h' : (s.setMem mem).terminal = false := (s.setMem_terminal mem).trans h
    rcases advance_cases c h with ⟨hc, ha⟩ | ⟨p, m, n, hc, hd, ha⟩ | ⟨p, op, n, hc, hd, ha⟩ | ⟨n, hc, ha⟩ |
      ⟨m, n, hc, hm, ha⟩ | ⟨m, n, hc, ha⟩ | ⟨m, w, hc, ha⟩
    · exact ⟨mem, by rw [ha, advance_of_latchPC h' hc]; rfl⟩
    · have hcell : (s.setMem mem).memRead p = s.memRead p := (s.setMem_memRead mem p).trans (hfetch p hc)
      exact ⟨mem, by rw [ha, advance_of_fetch_instr h' hc (by rw [hcell, hd])]; rfl⟩
    · have hcell : (s.setMem mem).memRead p = s.memRead p := (s.setMem_memRead mem p).trans (hfetch p hc)
      refine ⟨mem, ?_⟩
      rw [ha, advance_of_fetch_invalid h' hc (by rw [hcell, hd]), State.takeUndefinedOpcode, hcell]
      rfl
    · exact ⟨mem, by rw [ha, advance_of_ex1_hlt h' hc]; rfl⟩
    · exact ⟨mem, by rw [ha, advance_of_ex1_work h' hc hm, ex1Work_setMem]; rfl⟩
    · obtain ⟨mem', hwork⟩ := ex2Work_setMem (mem := mem) fun hm => hex2 m n hc (.inl hm)
      exact ⟨mem', by rw [ha, advance_of_ex2_work h' hc, hwork, ex2Carry_setMem (hex2 m n hc)]; rfl⟩
    · exact ⟨mem, by rw [ha, advance_of_ex3_work h' hc, ex3Work_setMem]; rfl⟩

/-- Settles O44: `advance_mem` leaves Execute-2 of STA as the one writer, and `advance_setMem` names the cells that are
read. -/
theorem memoryIsAccessedInTwoPhases : Obligations.MemoryIsAccessedInTwoPhases := by
  refine fun c s mem => ⟨?written, advance_setMem⟩
  split
  case h_1 n h hc => exact advance_mem_of_sta h hc
  case h_2 hsta => exact advance_mem hsta

end Sys2Proof.Machine
end

section
/-! Execute-3 (R86): the phase that writes back arithmetic, and the only one that writes `FLAGS`. -/

namespace Sys2Proof.Machine

variable {c : Config} {s : State}

/-- Outside Execute-3 a call leaves the flags (R24, R86), whether the machine is terminal or not. -/
theorem advance_flags (hc : ∀ m w, s.cyc ≠ .ex3 m w) : (advance c s).1.flags = s.flags := by
  cases h : s.terminal with
  | true => rw [advance_of_terminal h]
  | false =>
    obtain ⟨-, hcall⟩ := flagsWritersAndReaders
    obtain ⟨hwritten, -⟩ := hcall c s
    rw [hwritten h]
    split
    · next w hadd => exact absurd hadd (hc .add w)
    · next w hsub => exact absurd hsub (hc .sub w)
    · rfl

/-- Settles O14: an Execute-3 call is `ex3Work` and the return to LatchPC, row by row, and `advance_flags` covers the other
phases. -/
theorem executeThreeTransition : Obligations.ExecuteThreeTransition := by
  refine fun c s => ⟨fun m w h hc => ?_, advance_flags⟩
  rw [advance_of_ex3_work h hc]
  cases m <;> rfl

end Sys2Proof.Machine
end

section
/-! The ALU and the flag unit (R100 to R102): what `alu_add` and `alu_sub` compute, and which calls write `FLAGS` with what
`flags_of` gives. -/

namespace Sys2Proof.Machine

variable {c : Config} {s : State}

/-! ### The results -/

theorem toNat_sub_eq_emod (a b : Byte) : ((a - b).toNat : Int) = ((a.toNat : Int) - b.toNat) % 256 := by
  have ha := a.isLt
  have hb := b.isLt
  rw [BitVec.toNat_sub]
  omega

/-- Settles O17: the ALU's results are the byte's own sum and difference, which wrap at 256. -/
theorem aluIsModulo256 : Obligations.AluIsModulo256 := by
  refine fun a b => ⟨?sum, fun sc => ?difference⟩
  case sum => rw [aluAdd_fst, BitVec.toNat_add]
  case difference => rw [aluSub_fst, toNat_sub_eq_emod]

/-! ### The 9-bit sum (R101) -/

/-- Nine bits hold the sum of two bytes without wrapping. -/
theorem toNat_nineBitSum (a b : Byte) : (a.setWidth 9 + b.setWidth 9).toNat = a.toNat + b.toNat := by
  have ha := a.isLt
  have hb := b.isLt
  rw [BitVec.toNat_add, BitVec.toNat_setWidth, BitVec.toNat_setWidth]
  omega

theorem setWidth_nineBitSum (a b : Byte) : (a.setWidth 9 + b.setWidth 9).setWidth 8 = a + b := by
  apply BitVec.eq_of_toNat_eq
  rw [BitVec.toNat_setWidth, toNat_nineBitSum, BitVec.toNat_add]

/-- Bit 8 is the top bit of the 9-bit sum, so it is set exactly when the sum reaches 256. -/
theorem getLsbD_nineBitSum (a b : Byte) :
    (a.setWidth 9 + b.setWidth 9).getLsbD 8 = decide (a.toNat + b.toNat ≥ 256) := by
  have htop := BitVec.msb_eq_decide (a.setWidth 9 + b.setWidth 9)
  rw [toNat_nineBitSum, BitVec.msb_eq_getLsbD_last] at htop
  exact htop

/-- Settles O18: the 9-bit sum does not wrap, so its low byte is the ALU's result and its bit 8 the ALU's test for 256. -/
theorem aluAddUsesTheNinthBit : Obligations.AluAddUsesTheNinthBit := by
  refine fun a b => ⟨toNat_nineBitSum a b, ?result, ?flags⟩
  case result => rw [aluAdd_fst, setWidth_nineBitSum]
  case flags => rw [aluAdd_snd, setWidth_nineBitSum, getLsbD_nineBitSum]

/-! ### The flag unit (R102) -/

@[simp] theorem flagsOf_zero (wide : Bool) : flagsOf 0 wide = .zero := if_pos rfl

theorem flagsOf_of_ne_zero {r : Byte} (h : r ≠ 0) (wide : Bool) : flagsOf r wide = if wide then .carry else .none :=
  if_neg h

theorem advance_flags_of_add {w : Byte} (h : s.terminal = false) (hc : s.cyc = .ex3 .add w) :
    (advance c s).1.flags = flagsOf (s.a + w) (decide (s.a.toNat + w.toNat ≥ 256)) := by
  rw [advance_of_ex3_work h hc]
  exact aluAdd_snd s.a w

theorem advance_flags_of_sub {w : Byte} (h : s.terminal = false) (hc : s.cyc = .ex3 .sub w) :
    (advance c s).1.flags = flagsOf (s.a - w) (subWide c.subCarry s.a w) := by
  rw [advance_of_ex3_work h hc]
  exact aluSub_snd c.subCarry s.a w

theorem ex3Work_flags {m : Opcode} (hadd : m ≠ .add) (hsub : m ≠ .sub) (c : Config) (w : Byte) (s : State) :
    (ex3Work c m w s).flags = s.flags := by
  cases m with
  | add => exact absurd rfl hadd
  | sub => exact absurd rfl hsub
  | _ => rfl

/-- Outside Execute-3 of ADD and SUB a call leaves the flags, whether the machine is terminal or not: `advance_flags`
sharpened from the phase to the opcode. -/
theorem advance_flags_of_not_alu (hadd : ∀ w, s.cyc ≠ .ex3 .add w) (hsub : ∀ w, s.cyc ≠ .ex3 .sub w) :
    (advance c s).1.flags = s.flags := by
  by_cases hex3 : ∃ m w, s.cyc = .ex3 m w
  · obtain ⟨m, w, hc⟩ := hex3
    cases h : s.terminal with
    | true => rw [advance_of_terminal h]
    | false =>
      rw [advance_of_ex3_work h hc]
      exact ex3Work_flags (fun hm => hadd w (hm ▸ hc)) (fun hm => hsub w (hm ▸ hc)) c w s
  · exact advance_flags fun m w hc => hex3 ⟨m, w, hc⟩

/-- Settles O19: the flag unit's three answers, its two uses in Execute-3, and `advance_flags_of_not_alu` for every other
call. -/
theorem flagsComeFromTheFlagUnitAlone : Obligations.FlagsComeFromTheFlagUnitAlone :=
  ⟨flagsOf_zero, fun _ hr => ⟨flagsOf_of_ne_zero hr true, flagsOf_of_ne_zero hr false⟩, fun _ _ =>
    ⟨fun _ => advance_flags_of_add, fun _ => advance_flags_of_sub, advance_flags_of_not_alu⟩⟩

end Sys2Proof.Machine
end

section
/-! Encoding (R61, R65, R68, R70): the table's decoder inverts the encoder, and so does the rule's decoder for every injective
opcode map. -/

namespace Sys2Proof.Machine

variable {opc : Opcode → Nibble} {b : Byte}

/-! ### The table (R64, R65) -/

/-- A row's byte picks that row again: the opcode nibble is the row's own, and the 16 operands are tried. -/
@[simp] theorem decodeByte_encode (i : Instr) : decodeByte (encode i) = i := by
  cases i with
  | nop n | lda n | add n | sub n | sta n | ldi n | jmp n | jc n | jz n | out n | hlt n
  | undef9 n | undefA n | undefB n | undefC n | undefD n => revert n; decide

/-- Settles O2: a list is decoded from its first byte alone, and `decodeByte_encode` says what that byte is. -/
theorem decodeOfEncodeIsTheInstruction : Obligations.DecodeOfEncodeIsTheInstruction := by
  intro i rest
  rw [decode, decodeByte_encode]

/-- Settles O1: the decoder runs on each of the 16 bytes. -/
theorem wordsDecodeToTheirInstructions : Obligations.WordsDecodeToTheirInstructions :=
  ⟨rfl, rfl, rfl, rfl, rfl, rfl, rfl, rfl, rfl, rfl, rfl, rfl, rfl, rfl, rfl, rfl⟩

/-- Settles O3, byte by byte. -/
theorem encodeOfDecodeIsTheByte : Obligations.EncodeOfDecodeIsTheByte := by
  unfold Obligations.EncodeOfDecodeIsTheByte
  decide

/-! ### The rule, for any opcode map (R68) -/

theorem opcodeAt_eq_none_iff {op : Nibble} : opcodeAt opc op = none ↔ ∀ m, opc m ≠ op := by
  refine ⟨opcodeAt_none, fun h => ?_⟩
  cases hop : opcodeAt opc op with
  | none => rfl
  | some m => exact absurd (opcodeAt_some hop) (h m)

theorem decodeUnder_eq_instr_iff {m : Opcode} {n : Nibble} :
    decodeUnder opc b = .instr m n ↔ opcodeAt opc (highNibble b) = some m ∧ lowNibble b = n := by
  unfold decodeUnder
  cases opcodeAt opc (highNibble b) <;> simp

theorem decodeUnder_eq_invalid_iff {op n : Nibble} :
    decodeUnder opc b = .invalid op n ↔
      opcodeAt opc (highNibble b) = none ∧ highNibble b = op ∧ lowNibble b = n := by
  unfold decodeUnder
  cases opcodeAt opc (highNibble b) <;> simp

/-- Settles O4: an injective map finds each mnemonic at its own nibble, and a nibble that no mnemonic has finds none. -/
theorem everyOpcodeMapRoundTrips : Obligations.EveryOpcodeMapRoundTrips := by
  refine fun opc hw => ⟨fun m n => ?decode, fun b m n h => ?encode, fun b op n => ?invalid⟩
  case decode =>
    rw [decodeUnder_eq_instr_iff, encodeUnder, highNibble_joinNibbles, lowNibble_joinNibbles]
    exact ⟨opcodeAt_code hw m, rfl⟩
  case encode =>
    obtain ⟨hop, rfl⟩ := decodeUnder_eq_instr_iff.mp h
    rw [encodeUnder, opcodeAt_some hop, joinNibbles_parts]
  case invalid =>
    rw [decodeUnder_eq_invalid_iff, opcodeAt_eq_none_iff]
    constructor
    · rintro ⟨hnone, rfl, rfl⟩
      exact ⟨rfl, rfl, hnone⟩
    · rintro ⟨rfl, rfl, hnone⟩
      exact ⟨hnone, rfl, rfl⟩

/-! ### The rule at the default map is the table -/

/-- The two decoders agree, byte by byte. -/
theorem decodeUnder_defaultOpc (b : Byte) : decodeUnder defaultOpc b = (decodeByte b).decoded := by
  revert b; decide

/-- Settles O5: both sides are computed for each of the 256 bytes (`decodeUnder_defaultOpc`). -/
theorem tableDecoderIsTheRulesDecoder : Obligations.TableDecoderIsTheRulesDecoder := decodeUnder_defaultOpc

/-- A byte is undefined when the table has a reserved row for it (R65). -/
theorem undefinedByte_iff : undefinedByte b = true ↔ ∃ op n, (decodeByte b).decoded = .invalid op n := by
  rw [← decodeUnder_defaultOpc, undefinedByte, chosen_opc]
  cases decodeUnder defaultOpc b <;> simp

/-- A byte is undefined when its high nibble is one of the five that no mnemonic has (R65). -/
theorem undefinedByte_iff_highNibble :
    undefinedByte b = true ↔ 9 ≤ (highNibble b).toNat ∧ (highNibble b).toNat ≤ 13 := by
  have hop : ∀ op : Nibble, opcodeAt defaultOpc op = none ↔ 9 ≤ op.toNat ∧ op.toNat ≤ 13 := by decide
  simp only [undefinedByte_iff, ← decodeUnder_defaultOpc, decodeUnder_eq_invalid_iff, exists_and_left, exists_eq',
    and_true, hop]

end Sys2Proof.Machine
end

section
/-! The frame of the execute phases (R84 to R86): what each phase's own work leaves of a field, and what follows for one
`exec` (R87). -/

namespace Sys2Proof.Machine

variable {c : Config} {s t : State}

/-! ### What the work of each execute phase leaves -/

/-- Every work but a taken jump's leaves `PC` (R23). -/
theorem ex1Work_pc (m : Opcode) (n : Nibble) (s : State) :
    (ex1Work m n s).pc = if m = .jmp ∨ m = .jc ∧ s.flags = .carry ∨ m = .jz ∧ s.flags = .zero then n else s.pc := by
  cases m with
  | jc => rw [ex1Work_jc]; simp [Flags.c_eq_true_iff]
  | jz => rw [ex1Work_jz]; simp [Flags.z_eq_true_iff]
  | _ => rfl

@[simp] theorem ex2Work_pc (m : Opcode) (n : Nibble) (s : State) : (ex2Work m n s).pc = s.pc := by
  cases m <;> rfl

@[simp] theorem ex3Work_pc (c : Config) (m : Opcode) (w : Byte) (s : State) : (ex3Work c m w s).pc = s.pc := by
  cases m <;> rfl

theorem ex3Work_a {m : Opcode} (hadd : m ≠ .add) (hsub : m ≠ .sub) (c : Config) (w : Byte) (s : State) :
    (ex3Work c m w s).a = s.a := by
  cases m with
  | add => exact absurd rfl hadd
  | sub => exact absurd rfl hsub
  | _ => rfl

@[simp] theorem ex1Work_fault (m : Opcode) (n : Nibble) (s : State) : (ex1Work m n s).fault = s.fault := by
  cases m with
  | jc => rw [ex1Work_jc]; rfl
  | jz => rw [ex1Work_jz]; rfl
  | _ => rfl

@[simp] theorem ex2Work_fault (m : Opcode) (n : Nibble) (s : State) : (ex2Work m n s).fault = s.fault := by
  cases m <;> rfl

@[simp] theorem ex3Work_fault (c : Config) (m : Opcode) (w : Byte) (s : State) : (ex3Work c m w s).fault = s.fault := by
  cases m <;> rfl

theorem ex1Work_out (m : Opcode) (n : Nibble) (s : State) :
    (ex1Work m n s).out = if m = .out then s.out ++ [s.a] else s.out := by
  cases m with
  | jc => rw [ex1Work_jc]; rfl
  | jz => rw [ex1Work_jz]; rfl
  | _ => rfl

@[simp] theorem ex2Work_out (m : Opcode) (n : Nibble) (s : State) : (ex2Work m n s).out = s.out := by
  cases m <;> rfl

@[simp] theorem ex3Work_out (c : Config) (m : Opcode) (w : Byte) (s : State) : (ex3Work c m w s).out = s.out := by
  cases m <;> rfl

@[simp] theorem ex1Work_fresh (m : Opcode) (n : Nibble) (s : State) : (ex1Work m n s).fresh = s.fresh := by
  cases m with
  | jc => rw [ex1Work_jc]; rfl
  | jz => rw [ex1Work_jz]; rfl
  | _ => rfl

@[simp] theorem ex2Work_fresh (m : Opcode) (n : Nibble) (s : State) : (ex2Work m n s).fresh = s.fresh := by
  cases m <;> rfl

@[simp] theorem ex3Work_fresh (c : Config) (m : Opcode) (w : Byte) (s : State) : (ex3Work c m w s).fresh = s.fresh := by
  cases m <;> rfl

/-! ### A defined instruction's arm of `exec` in each execute phase -/

section
variable {m' : Opcode} {k : Nibble} {w : Byte}

theorem exec_ex1 (m : Opcode) (n : Nibble) (hm : m ≠ .hlt) (hc : s.cyc = .ex1 m' k) :
    exec (m.toInstr n) s = .next ((ex1Work m n s).setCyc (.ex2 m n)) := by
  rw [exec_toInstr, transition_ex1 _ _ _ hc, if_neg hm]
  rfl

theorem exec_ex1_hlt (n : Nibble) (hc : s.cyc = .ex1 m' k) : exec (.hlt n) s = .next s.setHalt := by
  rw [show Instr.hlt n = Opcode.hlt.toInstr n from rfl, exec_toInstr, transition_ex1 _ _ _ hc, if_pos rfl]

theorem exec_ex2 (m : Opcode) (n : Nibble) (hc : s.cyc = .ex2 m' k) :
    exec (m.toInstr n) s = .next ((ex2Work m n s).setCyc (.ex3 m (ex2Carry m n s))) := by
  rw [exec_toInstr, transition_ex2 _ _ _ hc]
  rfl

theorem exec_ex3 (m : Opcode) (n : Nibble) (hc : s.cyc = .ex3 m' w) :
    exec (m.toInstr n) s = .next ((ex3Work chosen m w s).setCyc .latchPC) := by
  rw [exec_toInstr, transition_ex3 _ _ _ hc]

end

/-! ### What one `exec` can do -/

/-- The five rows that have no instruction (R65, R133). -/
def IsReserved (i : Instr) : Prop :=
  ∃ n, i = .undef9 n ∨ i = .undefA n ∨ i = .undefB n ∨ i = .undefC n ∨ i = .undefD n

theorem isReserved_of_decoded {i : Instr} {op n : Nibble} (h : i.decoded = .invalid op n) : IsReserved i := by
  cases i with
  | undef9 n => exact ⟨n, .inl rfl⟩
  | undefA n => exact ⟨n, .inr (.inl rfl)⟩
  | undefB n => exact ⟨n, .inr (.inr (.inl rfl))⟩
  | undefC n => exact ⟨n, .inr (.inr (.inr (.inl rfl)))⟩
  | undefD n => exact ⟨n, .inr (.inr (.inr (.inr rfl)))⟩
  | _ => cases h

/-- Everything an arm of `exec` that answers a next state can have done, phase by phase (R87). -/
theorem exec_next_cases {i : Instr} (h : exec i s = .next t) :
    (s.cyc = .latchPC ∧ t = s.latchPC) ∨
    (∃ p m n, s.cyc = .fetch p ∧ i = m.toInstr n ∧ t = s.fetchDefined m n) ∨
    (∃ p, s.cyc = .fetch p ∧ IsReserved i ∧ t = s.takeUndefinedOpcode p) ∨
    (∃ n m' k, s.cyc = .ex1 m' k ∧ i = .hlt n ∧ t = s.setHalt) ∨
    (∃ m n m' k, s.cyc = .ex1 m' k ∧ i = m.toInstr n ∧ m ≠ .hlt ∧ t = (ex1Work m n s).setCyc (.ex2 m n)) ∨
    (∃ m n m' k, s.cyc = .ex2 m' k ∧ i = m.toInstr n ∧ t = (ex2Work m n s).setCyc (.ex3 m (ex2Carry m n s))) ∨
    (∃ m n m' w, s.cyc = .ex3 m' w ∧ i = m.toInstr n ∧ t = (ex3Work chosen m w s).setCyc .latchPC) := by
  rcases exec_cases i with ⟨m, n, rfl, hexec⟩ | ⟨op, n, mn, hd, hexec⟩
  · cases hc : s.cyc with
    | latchPC =>
      rw [hexec, transition_latchPC _ _ _ hc] at h
      cases h
      exact .inl ⟨rfl, rfl⟩
    | fetch p =>
      rw [hexec, transition_fetch _ _ _ hc] at h
      cases h
      exact .inr (.inl ⟨p, m, n, rfl, rfl, rfl⟩)
    | ex1 m' k =>
      by_cases hm : m = .hlt
      · subst hm
        cases (exec_ex1_hlt n hc).symm.trans h
        exact .inr (.inr (.inr (.inl ⟨n, m', k, rfl, rfl, rfl⟩)))
      · cases (exec_ex1 m n hm hc).symm.trans h
        exact .inr (.inr (.inr (.inr (.inl ⟨m, n, m', k, rfl, rfl, hm, rfl⟩))))
    | ex2 m' k =>
      cases (exec_ex2 m n hc).symm.trans h
      exact .inr (.inr (.inr (.inr (.inr (.inl ⟨m, n, m', k, rfl, rfl, rfl⟩)))))
    | ex3 m' w =>
      cases (exec_ex3 m n hc).symm.trans h
      exact .inr (.inr (.inr (.inr (.inr (.inr ⟨m, n, m', w, rfl, rfl, rfl⟩)))))
  · rcases runReserved_cases mn s with ⟨hc, hr⟩ | ⟨p, hc, hr⟩ | hr
    · cases (hr.symm.trans (hexec s).symm).trans h
      exact .inl ⟨hc, rfl⟩
    · cases (hr.symm.trans (hexec s).symm).trans h
      exact .inr (.inr (.inl ⟨p, hc, isReserved_of_decoded hd, rfl⟩))
    · cases (hr.symm.trans (hexec s).symm).trans h

/-! ### Memory -/

/-- `exec` leaves the memory, but for STA in Execute-2, which writes the accumulator to its operand's cell (R21, R112). -/
theorem exec_mem {i : Instr} (h : exec i s = .next t) :
    t.mem = s.mem ∨ ∃ n m k, i = .sta n ∧ s.cyc = .ex2 m k ∧ t.mem = Memory.write s.mem n s.a := by
  rcases exec_next_cases h with ⟨-, rfl⟩ | ⟨p, m, n, -, -, rfl⟩ | ⟨p, -, -, rfl⟩ | ⟨n, m', k, -, -, rfl⟩ |
    ⟨m, n, m', k, -, -, -, rfl⟩ | ⟨m, n, m', k, hc, rfl, rfl⟩ | ⟨m, n, m', w, -, -, rfl⟩
  · exact .inl rfl
  · exact .inl rfl
  · exact .inl rfl
  · exact .inl rfl
  · exact .inl (ex1Work_mem m n s)
  · rw [State.setCyc_mem, ex2Work_mem]
    by_cases hm : m = .sta
    · subst hm
      exact .inr ⟨n, m', k, rfl, hc, rfl⟩
    · exact .inl (if_neg hm)
  · exact .inl (ex3Work_mem chosen m w s)

theorem memRead_of_mem_eq (h : t.mem = s.mem) (q : Nibble) : t.memRead q = s.memRead q :=
  congrArg (Memory.read · q) h

/-- Settles O36: `exec_mem` leaves STA's write as the one case, and a write leaves every other cell. -/
theorem execLeavesMemory : Obligations.ExecLeavesMemory := by
  intro i s t h
  rcases exec_mem h with hmem | ⟨n, m, k, rfl, hc, hmem⟩
  · have hread := memRead_of_mem_eq hmem
    exact ⟨fun _ => ⟨hmem, hread⟩, fun _ => ⟨hmem, hread⟩, fun _ _ _ _ _ q _ => hread q⟩
  · refine ⟨fun hi => absurd rfl (hi n), fun hex2 => absurd hc (hex2 m k), fun n' a hi ha hw q hq => ?_⟩
    cases hi
    cases ha
    exact (memRead_of_mem_eq (s := s.memWrite n s.a) hmem q).trans
      ((State.memRead_memWrite hw n q s.a).trans (if_neg hq))

/-! ### Registers -/

/-- Settles O37: the cases of `exec_next_cases`, each with what its work leaves. -/
theorem execLeavesRegisters : Obligations.ExecLeavesRegisters := by
  intro i s t h
  rcases exec_next_cases h with ⟨-, rfl⟩ | ⟨p, m, n, hc, -, rfl⟩ | ⟨p, hc, -, rfl⟩ | ⟨n, m', k, -, -, rfl⟩ |
    ⟨m, n, m', k, hc, rfl, -, rfl⟩ | ⟨m, n, m', k, hc, rfl, rfl⟩ | ⟨m, n, m', w, hc, rfl, rfl⟩
  · exact ⟨absurd rfl, absurd rfl, absurd rfl⟩
  · exact ⟨absurd rfl, absurd rfl, fun _ => .inl ⟨p, hc⟩⟩
  · exact ⟨absurd rfl, absurd rfl, fun _ => .inl ⟨p, hc⟩⟩
  · exact ⟨absurd rfl, absurd rfl, absurd rfl⟩
  · refine ⟨fun ha => .inl ?_, absurd (ex1Work_flags m n s), fun hpc => .inr ?_⟩
    · have hm : m = .ldi := by
        by_contra hm
        exact ha ((ex1Work_a m n s).trans (if_neg hm))
      exact ⟨n, m', k, by rw [hm]; rfl, hc⟩
    · refine ⟨n, m', k, ?_, hc⟩
      have hm : m = .jmp ∨ m = .jc ∨ m = .jz := by
        by_contra hm
        refine hpc ((ex1Work_pc m n s).trans (if_neg fun hjump => hm ?_))
        exact hjump.imp_right (Or.imp And.left And.left)
      rcases hm with rfl | rfl | rfl
      · exact .inl rfl
      · exact .inr (.inl rfl)
      · exact .inr (.inr rfl)
  · refine ⟨fun ha => .inr (.inl ?_), absurd (ex2Work_flags m n s), absurd (ex2Work_pc m n s)⟩
    have hm : m = .lda := by
      by_contra hm
      exact ha ((ex2Work_a m n s).trans (if_neg hm))
    exact ⟨n, m', k, by rw [hm]; rfl, hc⟩
  · have halu : (m ≠ .add → m ≠ .sub → False) → Opcode.toInstr m n = .add n ∨ Opcode.toInstr m n = .sub n := by
      intro hm
      by_cases hadd : m = .add
      · exact .inl (by rw [hadd]; rfl)
      · exact .inr (by rw [not_not.mp (hm hadd)]; rfl)
    refine ⟨fun ha => .inr (.inr ⟨n, m', w, halu fun hadd hsub => ha ?_, hc⟩),
      fun hf => ⟨n, m', w, halu fun hadd hsub => hf ?_, hc⟩, absurd (ex3Work_pc chosen m w s)⟩
    · exact ex3Work_a hadd hsub chosen w s
    · exact ex3Work_flags hadd hsub chosen w s

/-! ### Latches and output -/

/-- Settles O38: the cases of `exec_next_cases`; the execute phases' work leaves both latches and `fresh`, and writes `OUT`
for OUT alone. -/
theorem execLeavesLatchesAndOutput : Obligations.ExecLeavesLatchesAndOutput := by
  intro i s t h
  rcases exec_next_cases h with ⟨hc, rfl⟩ | ⟨p, m, n, -, -, rfl⟩ | ⟨p, hc, ⟨n, hi⟩, rfl⟩ | ⟨n, m', k, hc, hi, rfl⟩ |
    ⟨m, n, m', k, hc, rfl, hm, rfl⟩ | ⟨m, n, m', k, -, -, rfl⟩ | ⟨m, n, m', w, -, -, rfl⟩
  · exact ⟨absurd rfl, absurd rfl, absurd rfl, fun _ => hc⟩
  · exact ⟨absurd rfl, absurd rfl, absurd rfl, absurd rfl⟩
  · exact ⟨absurd rfl, fun _ => ⟨n, p, hi, hc⟩, absurd rfl, absurd rfl⟩
  · exact ⟨fun _ => ⟨n, m', k, hi, hc⟩, absurd rfl, absurd rfl, absurd rfl⟩
  · refine ⟨absurd (ex1Work_halt hm n s), absurd (ex1Work_fault m n s), fun hout => ?_, absurd (ex1Work_fresh m n s)⟩
    have hm : m = .out := by
      by_contra hm
      exact hout ((ex1Work_out m n s).trans (if_neg hm))
    exact ⟨n, m', k, by rw [hm]; rfl, hc⟩
  · exact ⟨absurd (ex2Work_halt m n s), absurd (ex2Work_fault m n s), absurd (ex2Work_out m n s),
      absurd (ex2Work_fresh m n s)⟩
  · exact ⟨absurd (ex3Work_halt chosen m w s), absurd (ex3Work_fault chosen m w s), absurd (ex3Work_out chosen m w s),
      absurd (ex3Work_fresh chosen m w s)⟩

end Sys2Proof.Machine
end

section
/-! Memory (R21, R53, R54, R142): the canonical form is a normal form; who writes a cell, who sees the write, and what the
image load leaves. -/

namespace Sys2Proof.Machine

variable {s t : State}

/-! ### Canonical memories -/

theorem Memory.wfFrom_cons_iff {lo k : Nat} {v : Byte} {rest : Memory} :
    Memory.wfFrom lo ((k, v) :: rest) = true ↔
      lo ≤ k ∧ k < 16 ∧ v ≠ Memory.unlisted ∧ Memory.wfFrom (k + 1) rest = true := by
  simp only [Memory.wfFrom, Bool.and_eq_true, decide_eq_true_eq, and_assoc]

theorem Memory.lookup_head (k : Nat) (v : Byte) (rest : Memory) : Memory.lookup ((k, v) :: rest) k = v := if_pos rfl

theorem Memory.lookup_tail {k q : Nat} (h : k < q) (v : Byte) (rest : Memory) :
    Memory.lookup ((k, v) :: rest) q = Memory.lookup rest q := if_neg (Nat.ne_of_lt h)

/-- If a canonical memory lists a cell first, one that reads alike cannot begin after that cell: there it would read as
unlisted. -/
theorem Memory.head_le_of_lookup_eq {lo k j : Nat} {v w : Byte} {rest rest' : Memory}
    (h : Memory.wfFrom lo ((k, v) :: rest) = true) (h' : Memory.wfFrom lo ((j, w) :: rest') = true)
    (hread : ∀ q < 16, Memory.lookup ((k, v) :: rest) q = Memory.lookup ((j, w) :: rest') q) : j ≤ k := by
  obtain ⟨-, hk, hv, -⟩ := Memory.wfFrom_cons_iff.mp h
  obtain ⟨-, hj, hw, hrest'⟩ := Memory.wfFrom_cons_iff.mp h'
  by_contra hlt
  have hbelow : Memory.lookup ((j, w) :: rest') k = Memory.unlisted :=
    Memory.lookup_below (Memory.wfFrom_cons_iff.mpr ⟨Nat.le_refl j, hj, hw, hrest'⟩) (Nat.lt_of_not_le hlt)
  exact hv ((Memory.lookup_head k v rest).symm.trans ((hread k hk).trans hbelow))

/-- Canonical memories that read alike are equal: their first cells agree, and then so do the rest. -/
theorem Memory.eq_of_lookup_eq {lo : Nat} {m m' : Memory} (h : Memory.wfFrom lo m = true)
    (h' : Memory.wfFrom lo m' = true) (hread : ∀ q < 16, Memory.lookup m q = Memory.lookup m' q) : m = m' := by
  induction m generalizing lo m' with
  | nil =>
    cases m' with
    | nil => rfl
    | cons e rest =>
      obtain ⟨j, w⟩ := e
      obtain ⟨-, hj, hw, -⟩ := Memory.wfFrom_cons_iff.mp h'
      exact absurd ((Memory.lookup_head j w rest).symm.trans (hread j hj).symm) hw
  | cons e rest ih =>
    obtain ⟨k, v⟩ := e
    obtain ⟨-, hk, hv, hrest⟩ := Memory.wfFrom_cons_iff.mp h
    cases m' with
    | nil => exact absurd ((Memory.lookup_head k v rest).symm.trans (hread k hk)) hv
    | cons e' rest' =>
      obtain ⟨j, w⟩ := e'
      obtain ⟨-, -, -, hrest'⟩ := Memory.wfFrom_cons_iff.mp h'
      obtain rfl : j = k := Nat.le_antisymm (Memory.head_le_of_lookup_eq h h' hread)
        (Memory.head_le_of_lookup_eq h' h fun q hq => (hread q hq).symm)
      have hvalue := hread j hk
      rw [Memory.lookup_head, Memory.lookup_head] at hvalue
      have htail : rest = rest' := by
        refine ih hrest hrest' fun q hq => ?_
        by_cases hqj : j < q
        · have hq' := hread q hq
          rwa [Memory.lookup_tail hqj, Memory.lookup_tail hqj] at hq'
        · rw [Memory.lookup_below hrest (by omega), Memory.lookup_below hrest' (by omega)]
      rw [hvalue, htail]

/-- Settles O8: the 16 addresses are the cells that `Memory.eq_of_lookup_eq` compares. -/
theorem canonicalMemoriesAreEqualWhenTheyReadAlike : Obligations.CanonicalMemoriesAreEqualWhenTheyReadAlike :=
  fun _ _ h h' hread => Memory.eq_of_lookup_eq h h' fun q hq => hread (BitVec.ofNatLT q hq)

/-! ### Writers, and who sees the write -/

/-- Settles O43: every call leaves memory but one in Execute-2 of STA (`advance_mem`), and a written cell reads as
written. -/
theorem memoryWriters : Obligations.MemoryWriters := by
  refine ⟨fun c s => ?_, fun s p v hw => State.memRead_memWrite_same hw p v⟩
  by_cases hsta : ∃ n, s.terminal = false ∧ s.cyc = .ex2 .sta n
  · obtain ⟨n, h, hc⟩ := hsta
    refine .inr ⟨n, hc, ?_⟩
    rw [← advance_mem_of_sta h hc]
  · exact .inl (advance_mem fun n h hc => hsta ⟨n, h, hc⟩)

theorem current_of_fetch {p : Nibble} (hc : s.cyc = .fetch p) : s.current = some (decodeByte (s.memRead p)) := by
  unfold State.current; rw [hc]

/-- Outside Fetch the instruction in progress is not read from memory (R53). -/
theorem current_setMem (hc : ∀ p, s.cyc ≠ .fetch p) (m : Memory) : (s.setMem m).current = s.current := by
  unfold State.current
  rw [show (s.setMem m).cyc = s.cyc from rfl]
  cases h : s.cyc with
  | fetch p => exact absurd h (hc p)
  | _ => rfl

/-- Settles O48: the step writes the accumulator to the cell, and a Fetch there reads it. -/
theorem storesAreSeenByLaterFetches : Obligations.StoresAreSeenByLaterFetches := by
  refine ⟨fun s t u n hw h hc hstep hmem hfetch => ?_, fun s m hc => current_setMem hc m⟩
  rw [step_of_ex2 h hc, transition_ex2 _ _ _ hc] at hstep
  cases hstep
  have hread : u.memRead n = s.a := (memRead_of_mem_eq hmem n).trans (State.memRead_memWrite_same hw n s.a)
  rw [current_of_fetch hfetch, hread]

/-! ### The image load (R54, R142) -/

theorem imageWellFormed_iff {bytes : List Byte} : imageWellFormed bytes = true ↔ bytes.length = 16 := beq_iff_eq

theorem load_of_fresh {bytes : List Byte} (hf : s.fresh = true) (hlen : bytes.length = 16) :
    load bytes s = .next { s.touch with mem := Memory.fill s.mem 0 bytes } := by
  rw [load, if_pos hf, if_pos (imageWellFormed_iff.mpr hlen)]

/-- What a load that is admitted was given. -/
theorem fresh_of_load_next {bytes : List Byte} (h : load bytes s = .next t) :
    s.fresh = true ∧ bytes.length = 16 := by
  unfold load at h
  split at h
  · next hf =>
    split at h
    · next hlen => exact ⟨hf, imageWellFormed_iff.mp hlen⟩
    · cases h
  · cases h

/-- After the load of an image, cell `p` holds byte `p`. -/
theorem Memory.read_fill {m : Memory} (hw : m.wf = true) {bytes : List Byte} (hlen : bytes.length = 16) (p : Nibble) :
    bytes[p.toNat]? = some (Memory.read (Memory.fill m 0 bytes) p) := by
  have hp : p.toNat < bytes.length := hlen.symm ▸ p.isLt
  rw [Memory.read, Memory.lookup_fill hw 0 bytes (by omega), if_pos (by omega), Nat.sub_zero,
    List.getD_eq_getElem _ _ hp, List.getElem?_eq_getElem hp]

/-- Settles O57: the load has three outcomes, by `fresh` and by the length; `Memory.read_fill` reads the image back. -/
theorem loadTakesSixteenBytesOnce : Obligations.LoadTakesSixteenBytesOnce := by
  refine fun bytes s => ⟨fun hf => ?notFresh, fun hf hlen => ?length, fun hf hlen hw => ?image⟩
  case notFresh => rw [load, if_neg (by rw [hf]; decide)]
  case length => rw [load, if_pos hf, if_neg (mt imageWellFormed_iff.mp hlen)]
  case image =>
    exact ⟨_, load_of_fresh hf hlen, rfl, Memory.fill_wf hw 0 bytes (by omega), Memory.read_fill hw hlen⟩

end Sys2Proof.Machine
end

section
/-! The transitions, phase by phase (R33, R82 to R86, R90), and the readers and writers of `PC` and `OUT` (R23, R28). -/

namespace Sys2Proof.Machine

variable {c : Config} {s t : State}

/-! ### LatchPC and Fetch -/

theorem exec_latchPC (i : Instr) (hc : s.cyc = .latchPC) : exec i s = .next s.latchPC := by
  rcases exec_cases i with ⟨m, n, rfl, h⟩ | ⟨op, n, mn, -, h⟩
  · rw [h, transition_latchPC _ _ _ hc]
  · rw [h, runReserved_latchPC mn hc]

/-- Settles O9: the instruction in progress is read from `CYC` and memory, and Execute-3 reads no operand. -/
theorem stepRunsTheDecodedInstruction : Obligations.StepRunsTheDecodedInstruction := by
  refine fun s h => ⟨fun hc => ?latch, fun p i rest rest' hc hd => ?fetch, fun m n hc => ?ex1, fun m n hc => ?ex2,
    fun m w n hc => ?ex3⟩
  case latch => exact step_of_latchPC h hc
  case fetch =>
    cases hd
    exact step_of_current h (current_of_fetch hc)
  case ex1 => rw [step_of_ex1 h hc, exec_toInstr]
  case ex2 => rw [step_of_ex2 h hc, exec_toInstr]
  case ex3 => rw [step_of_ex3 h hc, transition_ex3 _ _ _ hc, exec_ex3 m n hc]

/-- Settles O10: the call, the step and every arm of `exec` are the same snapshot, which clears `fresh`. -/
theorem latchPCSnapshotsThePC : Obligations.LatchPCSnapshotsThePC := fun _ _ h hc =>
  ⟨false, advance_of_latchPC h hc, step_of_latchPC h hc, fun i => exec_latchPC i hc⟩

/-- Settles O11: the two paths of a Fetch. -/
theorem fetchAdvancesThePCAndDecodes : Obligations.FetchAdvancesThePCAndDecodes := by
  intro c s p h hc
  cases hd : decodeUnder c.opc (s.memRead p) with
  | instr m n => exact advance_of_fetch_instr h hc hd
  | invalid op n => exact advance_of_fetch_invalid h hc hd

/-! ### Execute-1 and Execute-2, and the phase policy -/

theorem ex1Work_jc_eq (n : Nibble) (s : State) :
    ex1Work .jc n s = s.setPc (if s.flags = .carry then n else s.pc) := by
  simp only [ex1Work_jc, Flags.c_eq_true_iff]

theorem ex1Work_jz_eq (n : Nibble) (s : State) :
    ex1Work .jz n s = s.setPc (if s.flags = .zero then n else s.pc) := by
  simp only [ex1Work_jz, Flags.z_eq_true_iff]

/-- Settles O12: the work of Execute-1, row by row; the operand is handed on as it is. -/
theorem executeOneTransition : Obligations.ExecuteOneTransition := by
  refine fun c s m n hpp h hc => ⟨n, fun _ => rfl, ?_⟩
  cases m with
  | hlt => exact advance_of_ex1_hlt h hc
  | jc => rw [advance_of_ex1_work h hc (by decide), hpp, ex1Work_jc_eq]; rfl
  | jz => rw [advance_of_ex1_work h hc (by decide), hpp, ex1Work_jz_eq]; rfl
  | _ => rw [advance_of_ex1_work h hc (by decide), hpp]; rfl

theorem ex2Carry_of_alu {m : Opcode} (hm : m ∈ [Opcode.add, .sub]) (n : Nibble) (s : State) :
    ex2Carry m n s = s.memRead n := by
  rcases List.mem_pair.mp hm with rfl | rfl <;> rfl

/-- Settles O13: the work of Execute-2, row by row. -/
theorem executeTwoTransition : Obligations.ExecuteTwoTransition := by
  refine fun c s m n hpp h hc _ => ⟨ex2Carry m n s, fun hm => ex2Carry_of_alu hm n s, ?_⟩
  rw [advance_of_ex2_work h hc, hpp]
  cases m <;> rfl

theorem afterEx1_earlyExit (m : Opcode) (n : Nibble) :
    afterEx1 .earlyExit m n = if m ∈ [Opcode.nop, .ldi, .jmp, .jc, .jz, .out] then .latchPC else .ex2 m n := by
  cases m <;> rfl

theorem afterEx2_earlyExit (m : Opcode) (w : Byte) :
    afterEx2 .earlyExit m w = if m ∈ [Opcode.lda, .sta] then .latchPC else .ex3 m w := by
  cases m <;> rfl

/-- Settles O15: the policy is read in `afterEx1` and `afterEx2` alone. -/
theorem earlyExitChangesOnlyTheNextPhase : Obligations.EarlyExitChangesOnlyTheNextPhase := by
  refine fun c s hpp h => ⟨fun m n hc hm => ?ex1, fun m n hc hm => ?ex2, fun hex1 hex2 => ?same⟩
  case ex1 =>
    have hhlt : m ≠ .hlt := by rintro rfl; exact absurd hm (by decide)
    rw [advance_of_ex1_work h hc hhlt, advance_of_ex1_work h hc hhlt, afterEx1_earlyExit, if_pos hm]
    rfl
  case ex2 =>
    rw [advance_of_ex2_work h hc, advance_of_ex2_work h hc, afterEx2_earlyExit, if_pos hm]
    rfl
  case same =>
    cases hc : s.cyc with
    | latchPC => rw [advance_of_latchPC h hc, advance_of_latchPC h hc]
    | fetch p =>
      rw [fetchAdvancesThePCAndDecodes _ s p h hc, fetchAdvancesThePCAndDecodes _ s p h hc]
    | ex1 m n =>
      by_cases hm : m = .hlt
      · subst hm
        rw [advance_of_ex1_hlt h hc, advance_of_ex1_hlt h hc]
      · rw [advance_of_ex1_work h hc hm, advance_of_ex1_work h hc hm, afterEx1_earlyExit, if_neg (hex1 m n hc), hpp,
          afterEx1_uniform5]
    | ex2 m n =>
      rw [advance_of_ex2_work h hc, advance_of_ex2_work h hc, afterEx2_earlyExit, if_neg (hex2 m n hc), hpp,
        afterEx2_uniform5]
    | ex3 m w =>
      rw [advance_of_ex3_work h hc, advance_of_ex3_work h hc]
      rfl

/-! ### Terminal machines -/

/-- Settles O16: a latch that is set is what each of them tests first. -/
theorem terminalMachinesAreFrozen : Obligations.TerminalMachinesAreFrozen := by
  refine fun c s h => ⟨step_of_terminal h, fun r hf => advance_of_fault hf, fun hf => ?_, advanceN_of_terminal h⟩
  have hh : s.halt = true := by simpa [State.terminal, hf] using h
  exact advance_of_halt hf hh

/-! ### The program counter -/

theorem nextAddress_eq_ofNat (p : Nibble) : nextAddress p = BitVec.ofNat 4 ((p.toNat + 1) % 16) := by
  revert p; decide

/-- The writers of `PC` (R23). -/
theorem advance_pc (h : s.terminal = false) :
    (∃ p, s.cyc = .fetch p ∧ (advance c s).1.pc = nextAddress s.pc) ∨
    (∃ m n, s.cyc = .ex1 m n ∧ (advance c s).1.pc = (ex1Work m n s).pc) ∨
    ((∀ p, s.cyc ≠ .fetch p) ∧ (∀ m n, s.cyc ≠ .ex1 m n) ∧ (advance c s).1.pc = s.pc) := by
  rcases advance_cases c h with ⟨hc, ha⟩ | ⟨p, m, n, hc, -, ha⟩ | ⟨p, op, n, hc, -, ha⟩ | ⟨n, hc, ha⟩ |
    ⟨m, n, hc, -, ha⟩ | ⟨m, n, hc, ha⟩ | ⟨m, w, hc, ha⟩
  · rw [ha, hc]; exact .inr (.inr ⟨nofun, nofun, rfl⟩)
  · exact .inl ⟨p, hc, by rw [ha]; rfl⟩
  · exact .inl ⟨p, hc, by rw [ha]; rfl⟩
  · exact .inr (.inl ⟨.hlt, n, hc, by rw [ha]; rfl⟩)
  · exact .inr (.inl ⟨m, n, hc, by rw [ha]; rfl⟩)
  · rw [ha, hc]; exact .inr (.inr ⟨nofun, nofun, ex2Work_pc m n s⟩)
  · rw [ha, hc]; exact .inr (.inr ⟨nofun, nofun, ex3Work_pc c m w s⟩)

theorem ex1Work_ignores_pc (m : Opcode) (n : Nibble) (s : State) (v : Nibble) :
    ∃ u, ex1Work m n (s.setPc v) = (ex1Work m n s).setPc u := by
  cases m with
  | jmp => exact ⟨n, rfl⟩
  | jc => exact ⟨if s.flags.c = true then n else v, by rw [ex1Work_jc, ex1Work_jc]; rfl⟩
  | jz => exact ⟨if s.flags.z = true then n else v, by rw [ex1Work_jz, ex1Work_jz]; rfl⟩
  | _ => exact ⟨v, rfl⟩

theorem ex2Work_setPc (m : Opcode) (n : Nibble) (s : State) (v : Nibble) :
    ex2Work m n (s.setPc v) = (ex2Work m n s).setPc v := by
  cases m <;> rfl

theorem ex3Work_setPc (c : Config) (m : Opcode) (w : Byte) (s : State) (v : Nibble) :
    ex3Work c m w (s.setPc v) = (ex3Work c m w s).setPc v := by
  cases m <;> rfl

/-- No execute phase reads `PC` (R23). `PC` is not `ReadOnlyByExecute`, since LatchPC and Fetch consult it; so the two calls
are compared phase by phase. -/
theorem advance_setPc (hlatch : s.cyc ≠ .latchPC) (hfetch : ∀ p, s.cyc ≠ .fetch p) (v : Nibble) :
    ∃ u, advance c (s.setPc v) = ((advance c s).1.setPc u, (advance c s).2) := by
  cases h : s.terminal with
  | true =>
    have h' : (s.setPc v).terminal = true := h
    exact ⟨v, by rw [advance_of_terminal_eq h, advance_of_terminal_eq h']; rfl⟩
  | false =>
    have h' : (s.setPc v).terminal = false := h
    cases hc : s.cyc with
    | latchPC => exact absurd hc hlatch
    | fetch p => exact absurd hc (hfetch p)
    | ex1 m n =>
      by_cases hm : m = .hlt
      · subst hm
        exact ⟨v, by rw [advance_of_ex1_hlt h hc, advance_of_ex1_hlt h' hc]; rfl⟩
      · obtain ⟨u, hu⟩ := ex1Work_ignores_pc m n s v
        exact ⟨u, by rw [advance_of_ex1_work h hc hm, advance_of_ex1_work h' hc hm, hu]; rfl⟩
    | ex2 m n =>
      exact ⟨v, by rw [advance_of_ex2_work h hc, advance_of_ex2_work h' hc, ex2Work_setPc,
        ex2Carry_congr m (s.setPc_memRead v n)]; rfl⟩
    | ex3 m w => exact ⟨v, by rw [advance_of_ex3_work h hc, advance_of_ex3_work h' hc, ex3Work_setPc]; rfl⟩

/-- The two calls that snapshot `PC` and fetch at it leave the flags, and `PC` one on, whatever the byte (R82, R83). -/
theorem advanceN_two_of_latchPC (h : s.terminal = false) (hc : s.cyc = .latchPC) :
    (advanceN c 2 s).pc = nextAddress s.pc ∧ (advanceN c 2 s).flags = s.flags := by
  have h' : s.latchPC.terminal = false := h
  have htwo : advanceN c 2 s = (advance c s.latchPC).1 := by
    rw [advanceN, advance_of_latchPC h hc, advanceN, advanceN]
  cases hd : decodeUnder c.opc (s.latchPC.memRead s.pc) with
  | instr m n => rw [htwo, advance_of_fetch_instr h' rfl hd]; exact ⟨rfl, rfl⟩
  | invalid op n => rw [htwo, advance_of_fetch_invalid h' rfl hd]; exact ⟨rfl, rfl⟩

/-- Settles O40: the writers are `advance_pc`, and the readers what `advance_setPc` leaves. -/
theorem programCounterWritersAndReaders : Obligations.ProgramCounterWritersAndReaders := by
  refine fun c s => ⟨fun h => ?writers, BitVec.isLt _, fun h hc => ?latch, fun hlatch hfetch v =>
    advance_setPc hlatch hfetch v⟩
  case writers =>
    rcases advance_pc (c := c) h with ⟨p, hc, hpc⟩ | ⟨m, n, hc, hpc⟩ | ⟨hfetch, hex1, hpc⟩
    · rw [hpc, hc]; exact nextAddress_eq_ofNat s.pc
    · rw [hpc, hc]
      cases m with
      | jc => rw [ex1Work_jc_eq]; rfl
      | jz => rw [ex1Work_jz_eq]; rfl
      | _ => rfl
    · rw [hpc]
      cases hc : s.cyc with
      | fetch p => exact absurd hc (hfetch p)
      | ex1 m n => exact absurd hc (hex1 m n)
      | _ => rfl
  case latch =>
    obtain ⟨hpc, hflags⟩ := advanceN_two_of_latchPC (c := c) h hc
    rw [advanceN, advanceN, advance_of_latchPC h hc]
    exact ⟨rfl, rfl, hpc.trans (nextAddress_eq_ofNat s.pc), hflags⟩

/-! ### The output -/

/-- The machine with another output: what it is compared with to see that no call reads it. -/
def State.setOut (s : State) (o : List Byte) : State := { s with out := o }

theorem readOnlyByExecute_setOut : ReadOnlyByExecute State.setOut where
  halt _ _ := rfl
  fault _ _ := rfl
  cyc _ _ := rfl
  memRead _ _ _ := rfl
  setCyc _ _ _ := rfl
  latchPC _ _ := rfl
  fetchDefined _ _ _ _ := rfl
  takeUndefinedOpcode _ _ _ := rfl

theorem ex1Work_ignores_out (m : Opcode) (n : Nibble) (s : State) (o : List Byte) :
    ∃ u, ex1Work m n (s.setOut o) = (ex1Work m n s).setOut u := by
  cases m with
  | out => exact ⟨o ++ [s.a], rfl⟩
  | jc => exact ⟨o, by rw [ex1Work_jc, ex1Work_jc]; rfl⟩
  | jz => exact ⟨o, by rw [ex1Work_jz, ex1Work_jz]; rfl⟩
  | _ => exact ⟨o, rfl⟩

theorem ex2Work_setOut (m : Opcode) (n : Nibble) (s : State) (o : List Byte) :
    ex2Work m n (s.setOut o) = (ex2Work m n s).setOut o := by
  cases m <;> rfl

theorem ex3Work_setOut (c : Config) (m : Opcode) (w : Byte) (s : State) (o : List Byte) :
    ex3Work c m w (s.setOut o) = (ex3Work c m w s).setOut o := by
  cases m <;> rfl

/-- A call outside Execute-1 of OUT leaves the output, and so does every call on a terminal machine (R28). -/
theorem advance_out (hout : ∀ n, s.terminal = false → s.cyc ≠ .ex1 .out n) : (advance c s).1.out = s.out := by
  cases h : s.terminal with
  | true => rw [advance_of_terminal h]
  | false =>
    rcases advance_cases c h with ⟨-, ha⟩ | ⟨p, m, n, -, -, ha⟩ | ⟨p, op, n, -, -, ha⟩ | ⟨n, -, ha⟩ |
      ⟨m, n, hc, -, ha⟩ | ⟨m, n, -, ha⟩ | ⟨m, w, -, ha⟩
    · rw [ha]; rfl
    · rw [ha]; rfl
    · rw [ha]; rfl
    · rw [ha]; rfl
    · have hm : m ≠ .out := fun hm => hout n h (hm ▸ hc)
      rw [ha, State.setCyc_out, ex1Work_out, if_neg hm]
    · rw [ha]; exact ex2Work_out m n s
    · rw [ha]; exact ex3Work_out c m w s

/-- Settles O45: `advance_out` leaves Execute-1 of OUT as the one writer, and no phase's work reads the output. -/
theorem outputIsAppendOnly : Obligations.OutputIsAppendOnly := by
  refine fun c s => ⟨?written, fun o => ?unread⟩
  case written =>
    split
    next n h hc =>
      rw [advance_of_ex1_work h hc (by decide)]
      rfl
    next hout => exact advance_out hout
  case unread =>
    refine advance_ignores readOnlyByExecute_setOut o (fun m n _ => ?_) (fun m n _ => ?_) (fun m w _ => ?_)
    · exact ex1Work_ignores_out m n s o
    · exact ⟨o, ex2Work_setOut m n s o⟩
    · exact ⟨o, ex3Work_setOut c m w s o⟩

end Sys2Proof.Machine
end

section
/-! One step: it is one `advance()` call (R80), it raises the fault in one case alone (R141, R144), and it keeps the invariant
(R23, R132). -/

namespace Sys2Proof.Machine

variable {c : Config} {s t : State}

/-! ### Which updates end the machine (R33) -/

@[simp] theorem State.setCyc_terminal (k : Cyc) (s : State) : (s.setCyc k).terminal = s.terminal := rfl
@[simp] theorem State.latchPC_terminal (s : State) : s.latchPC.terminal = s.terminal := rfl
@[simp] theorem State.fetchDefined_terminal (m : Opcode) (n : Nibble) (s : State) :
    (s.fetchDefined m n).terminal = s.terminal := rfl
@[simp] theorem State.setHalt_terminal (s : State) : s.setHalt.terminal = true := rfl

@[simp] theorem State.takeUndefinedOpcode_terminal (p : Nibble) (s : State) :
    (s.takeUndefinedOpcode p).terminal = true := Bool.or_true _

theorem ex1Work_terminal {m : Opcode} (hm : m ≠ .hlt) (n : Nibble) (s : State) :
    (ex1Work m n s).terminal = s.terminal := by
  unfold State.terminal; rw [ex1Work_halt hm, ex1Work_fault]

@[simp] theorem ex2Work_terminal (m : Opcode) (n : Nibble) (s : State) : (ex2Work m n s).terminal = s.terminal := by
  unfold State.terminal; rw [ex2Work_halt, ex2Work_fault]

@[simp] theorem ex3Work_terminal (c : Config) (m : Opcode) (w : Byte) (s : State) :
    (ex3Work c m w s).terminal = s.terminal := by
  unfold State.terminal; rw [ex3Work_halt, ex3Work_fault]

/-! ### What a call returns is read from the state it leaves (R80, R81) -/

theorem result_of_not_terminal (h : s.terminal = false) : s.result = .running := by
  obtain ⟨hh, hf⟩ := not_terminal_iff.mp h
  unfold State.result
  rw [hf, hh]
  rfl

theorem result_of_halt (hf : s.fault = none) (hh : s.halt = true) : s.result = .halted := by
  unfold State.result
  rw [hf, hh]
  rfl

theorem result_of_fault {r : FaultRecord} (hf : s.fault = some r) : s.result = .fault (.undefinedOpcode r) := by
  unfold State.result
  rw [hf]

theorem advance_result (c : Config) (s : State) : (advance c s).2 = (advance c s).1.result := by
  cases h : s.terminal with
  | true => rw [advance_of_terminal_eq h]
  | false =>
    rcases advance_cases c h with ⟨-, ha⟩ | ⟨p, m, n, -, -, ha⟩ | ⟨p, op, n, -, -, ha⟩ | ⟨n, -, ha⟩ |
      ⟨m, n, -, hm, ha⟩ | ⟨m, n, -, ha⟩ | ⟨m, w, -, ha⟩
    · rw [ha]; exact (result_of_not_terminal h).symm
    · rw [ha]; exact (result_of_not_terminal h).symm
    · rw [ha]; exact (result_of_fault rfl).symm
    · rw [ha]; exact (result_of_halt (s := s.setHalt) (not_terminal_iff.mp h).2 rfl).symm
    · rw [ha]; exact (result_of_not_terminal ((ex1Work_terminal hm n s).trans h)).symm
    · rw [ha]; exact (result_of_not_terminal ((ex2Work_terminal m n s).trans h)).symm
    · rw [ha]; exact (result_of_not_terminal ((ex3Work_terminal c m w s).trans h)).symm

/-! ### The step by instructions is the call by phases -/

theorem step_eq_advance (s : State) : step s = .next (advance chosen s).1 := by
  cases h : s.terminal with
  | true => rw [step_of_terminal h, advance_of_terminal h]
  | false =>
    cases hc : s.cyc with
    | latchPC => rw [step_of_latchPC h hc, advance_of_latchPC h hc]
    | fetch p =>
      have hu : decodeUnder chosen.opc (s.memRead p) = (decodeByte (s.memRead p)).decoded := decodeUnder_defaultOpc _
      cases hd : (decodeByte (s.memRead p)).decoded with
      | instr m n => rw [step_of_fetch h hc, hd, advance_of_fetch_instr h hc (hu.trans hd)]
      | invalid op n => rw [step_of_fetch h hc, hd, advance_of_fetch_invalid h hc (hu.trans hd)]
    | ex1 m n => rw [step_of_ex1 h hc, advance_of_ex1 h hc]
    | ex2 m n => rw [step_of_ex2 h hc, advance_of_ex2 h hc]
    | ex3 m w => rw [step_of_ex3 h hc, advance_of_ex3 h hc]

/-- Settles O52: `step_eq_advance` compares the states phase by phase, and `advance_result` reads the value returned. -/
theorem stepIsAdvance : Obligations.StepIsAdvance := fun s => ⟨step_eq_advance s, advance_result chosen s⟩

/-! ### The fault (R141, R144) -/

/-- A step of a running machine fetches an undefined byte and takes the fault, or does neither. -/
theorem step_fault_cases (h : s.terminal = false) (hstep : step s = .next t) :
    (t.fault = none ∧ ∀ p, s.cyc = .fetch p → ¬ undefinedByte (s.memRead p) = true) ∨
    (∃ p, s.cyc = .fetch p ∧ undefinedByte (s.memRead p) = true ∧ t = s.takeUndefinedOpcode p) := by
  obtain ⟨-, hf⟩ := not_terminal_iff.mp h
  rcases step_cases hstep with ⟨hterm, -⟩ | ⟨-, ⟨hc, rfl⟩ | ⟨p, m, n, hc, hd, rfl⟩ | ⟨p, op, n, hc, hd, rfl⟩ |
    ⟨n, hc, rfl⟩ | ⟨m, n, hc, -, rfl⟩ | ⟨m, n, hc, rfl⟩ | ⟨m, w, hc, rfl⟩⟩
  · rw [h] at hterm; cases hterm
  · rw [hc]; exact .inl ⟨hf, nofun⟩
  · refine .inl ⟨hf, fun p' hc' hundef => ?_⟩
    obtain ⟨op, n', hd'⟩ := undefinedByte_iff.mp hundef
    cases hc.symm.trans hc'
    cases hd.symm.trans hd'
  · exact .inr ⟨p, hc, undefinedByte_iff.mpr ⟨op, n, hd⟩, rfl⟩
  · rw [hc]; exact .inl ⟨hf, nofun⟩
  · rw [hc]; exact .inl ⟨(ex1Work_fault m n s).trans hf, nofun⟩
  · rw [hc]; exact .inl ⟨(ex2Work_fault m n s).trans hf, nofun⟩
  · rw [hc]; exact .inl ⟨(ex3Work_fault chosen m w s).trans hf, nofun⟩

/-- Settles O46: the two cases of `step_fault_cases`, and which bytes are undefined. -/
theorem faultIsRaisedExactlyByAnUndefinedFetch : Obligations.FaultIsRaisedExactlyByAnUndefinedFetch := by
  refine ⟨fun s t h hstep => ?step, fun b => undefinedByte_iff_highNibble, by decide⟩
  rcases step_fault_cases h hstep with ⟨hnone, hdef⟩ | ⟨p, hc, hundef, rfl⟩
  · refine ⟨⟨absurd hnone, fun ⟨p, hc, hundef⟩ => absurd hundef (hdef p hc)⟩, fun r hr => ?_⟩
    cases hnone.symm.trans hr
  · refine ⟨⟨fun _ => ⟨p, hc, hundef⟩, fun _ => nofun⟩, fun r hr => ?_⟩
    cases hr
    exact ⟨hc, rfl, rfl⟩

/-- A defined instruction's transition leaves the fault latch in every phase (R144). -/
theorem transition_fault (c : Config) (m : Opcode) (n : Nibble) (s : State) : (transition c m n s).fault = s.fault := by
  cases hc : s.cyc with
  | latchPC => rw [transition_latchPC c m n hc]; rfl
  | fetch p => rw [transition_fetch c m n hc]; rfl
  | ex1 m' k =>
    rw [transition_ex1 c m n hc]
    split
    · rfl
    · exact ex1Work_fault m n s
  | ex2 m' k => rw [transition_ex2 c m n hc]; exact ex2Work_fault m n s
  | ex3 m' w => rw [transition_ex3 c m n hc]; exact ex3Work_fault c m w s

/-- Settles O47: `transition_fault` for the instructions, `step_fault_cases` for the step. -/
theorem definedInstructionsNeverFault : Obligations.DefinedInstructionsNeverFault := by
  refine ⟨fun m n s => ⟨_, exec_toInstr m n s, transition_fault chosen m n s⟩, fun s => ⟨_, step_eq_advance s⟩,
    fun s t hstep hne => ?_⟩
  cases h : s.terminal with
  | true =>
    cases (step_of_terminal h).symm.trans hstep
    exact absurd rfl hne
  | false =>
    rcases step_fault_cases h hstep with ⟨hnone, -⟩ | ⟨p, hc, hundef, -⟩
    · exact absurd (hnone.trans (not_terminal_iff.mp h).2.symm) hne
    · exact ⟨p, hc, hundef⟩

/-! ### The invariant -/

/-- Settles O49: a fresh machine is the machine right after reset by definition. -/
theorem resetMeetsTheInvariant : Obligations.ResetMeetsTheInvariant := ⟨rfl, rfl, fun _ => rfl⟩

/-- Settles O6: an empty memory reads 0x00 everywhere, and the rest are the fields of `State.reset`. -/
theorem resetIsZeroed : Obligations.ResetIsZeroed :=
  ⟨fun _ => rfl, rfl, rfl, rfl, rfl, rfl, rfl, rfl, rfl⟩

/-- What the invariant asks of `CYC` while the machine runs: `PC` is the snapshot during Fetch, and HLT is not beyond
Execute-1. -/
theorem cycOk_iff_of_not_terminal (h : s.terminal = false) :
    s.cycOk = true ↔ (∀ p, s.cyc = .fetch p → s.pc = p) ∧ (∀ m n, s.cyc = .ex2 m n → m ≠ .hlt) ∧
      ∀ m w, s.cyc = .ex3 m w → m ≠ .hlt := by
  obtain ⟨hh, hf⟩ := not_terminal_iff.mp h
  unfold State.cycOk
  cases s.cyc <;> simp [hh, hf]

theorem advance_keeps_wf (hw : s.mem.wf = true) : (advance c s).1.mem.wf = true := by
  obtain ⟨hwriters, -⟩ := memoryWriters
  rcases hwriters c s with hmem | ⟨n, -, hmem⟩
  · rwa [hmem]
  · rw [hmem]
    exact Memory.write_wf hw n s.a

theorem step_keeps_wf (hw : s.mem.wf = true) (hstep : step s = .next t) : t.mem.wf = true := by
  cases (step_eq_advance s).symm.trans hstep
  exact advance_keeps_wf hw

/-- The case that ends the machine with a fault leaves the record of what was fetched, `PC` one past the snapshot. -/
theorem cycOk_takeUndefinedOpcode {p : Nibble} (h : s.terminal = false) (hc : s.cyc = .fetch p) (hpc : s.pc = p)
    (hundef : undefinedByte (s.memRead p) = true) : (s.takeUndefinedOpcode p).cycOk = true := by
  obtain ⟨hh, -⟩ := not_terminal_iff.mp h
  simp [State.cycOk, hc, hh, hpc, hundef]

theorem cycOk_setHalt {n : Nibble} (h : s.terminal = false) (hc : s.cyc = .ex1 .hlt n) : s.setHalt.cycOk = true := by
  obtain ⟨-, hf⟩ := not_terminal_iff.mp h
  simp [State.cycOk, hc, hf]

theorem step_keeps_cycOk (hok : s.cycOk = true) (hstep : step s = .next t) : t.cycOk = true := by
  rcases step_cases hstep with ⟨-, rfl⟩ | ⟨h, hcase⟩
  · exact hok
  obtain ⟨hpc, hex2, -⟩ := (cycOk_iff_of_not_terminal h).mp hok
  rcases hcase with ⟨-, rfl⟩ | ⟨p, m, n, -, -, rfl⟩ | ⟨p, op, n, hc, hd, rfl⟩ | ⟨n, hc, rfl⟩ | ⟨m, n, -, hm, rfl⟩ |
    ⟨m, n, hc, rfl⟩ | ⟨m, w, -, rfl⟩
  · exact (cycOk_iff_of_not_terminal (s := s.latchPC) h).mpr ⟨fun p hp => Cyc.fetch.inj hp, nofun, nofun⟩
  · exact (cycOk_iff_of_not_terminal (s := s.fetchDefined m n) h).mpr ⟨nofun, nofun, nofun⟩
  · exact cycOk_takeUndefinedOpcode h hc (hpc p hc) (undefinedByte_iff.mpr ⟨op, n, hd⟩)
  · exact cycOk_setHalt h hc
  · have h' : ((ex1Work m n s).setCyc (.ex2 m n)).terminal = false := (ex1Work_terminal hm n s).trans h
    refine (cycOk_iff_of_not_terminal h').mpr ⟨nofun, fun m' n' hc' => ?_, nofun⟩
    cases hc'
    exact hm
  · have h' : ((ex2Work m n s).setCyc (.ex3 m (ex2Carry m n s))).terminal = false := (ex2Work_terminal m n s).trans h
    refine (cycOk_iff_of_not_terminal h').mpr ⟨nofun, nofun, fun m' w hc' => ?_⟩
    cases hc'
    exact hex2 m n hc
  · have h' : ((ex3Work chosen m w s).setCyc .latchPC).terminal = false := (ex3Work_terminal chosen m w s).trans h
    exact (cycOk_iff_of_not_terminal h').mpr ⟨nofun, nofun, nofun⟩

/-- A machine past LatchPC is not the machine right after reset. -/
theorem not_fresh_of_cyc (hfresh : s.fresh = true → s = State.reset) (hc : s.cyc ≠ .latchPC) : s.fresh ≠ true := by
  intro hf
  rw [hfresh hf] at hc
  exact hc rfl

theorem step_keeps_fresh (hfresh : s.fresh = true → s = State.reset) (hstep : step s = .next t) :
    t.fresh = true → t = State.reset := by
  rcases step_cases hstep with ⟨-, rfl⟩ | ⟨-, ⟨-, rfl⟩ | ⟨p, m, n, hc, -, rfl⟩ | ⟨p, op, n, hc, -, rfl⟩ |
    ⟨n, hc, rfl⟩ | ⟨m, n, hc, -, rfl⟩ | ⟨m, n, hc, rfl⟩ | ⟨m, w, hc, rfl⟩⟩
  · exact hfresh
  · exact nofun
  all_goals
    have hs : s.fresh ≠ true := not_fresh_of_cyc hfresh (by rw [hc]; nofun)
    intro ht
    refine absurd ?_ hs
    simpa using ht

/-- Settles O50: each of the invariant's three parts is kept. -/
theorem stepKeepsTheInvariant : Obligations.StepKeepsTheInvariant := by
  rintro s t ⟨hw, hok, hfresh⟩ hstep
  exact ⟨step_keeps_wf hw hstep, step_keeps_cycOk hok hstep, step_keeps_fresh hfresh hstep⟩

theorem load_keeps_inv {bytes : List Byte} (hinv : s.Inv) (hload : load bytes s = .next t) : t.Inv := by
  obtain ⟨hw, -, hfresh⟩ := hinv
  obtain ⟨hf, hlen⟩ := fresh_of_load_next hload
  obtain rfl := hfresh hf
  rw [eq_of_load_next hload]
  exact ⟨Memory.fill_wf hw 0 bytes (by omega), rfl, nofun⟩

theorem reachable_inv (h : Reachable s) : s.Inv := by
  induction h with
  | reset => exact resetMeetsTheInvariant
  | load bytes _ hload ih => exact load_keeps_inv ih hload
  | step _ hstep ih => exact stepKeepsTheInvariant _ _ ih hstep

/-- In no phase does the invariant let both latches be set (R33). -/
theorem not_halt_and_fault (hok : s.cycOk = true) : ¬(s.halt = true ∧ s.fault ≠ none) := by
  rintro ⟨hh, hf⟩
  unfold State.cycOk at hok
  cases hc : s.cyc <;> simp [hc, hh, hf] at hok

/-- HLT is never beyond Execute-1 (R132). -/
theorem hlt_not_beyond_ex1 (hok : s.cycOk = true) : (∀ n, s.cyc ≠ .ex2 .hlt n) ∧ ∀ w, s.cyc ≠ .ex3 .hlt w := by
  refine ⟨fun n hc => ?_, fun w hc => ?_⟩ <;> simp [State.cycOk, hc] at hok

/-- Settles O51: the invariant holds along every reachable state, and `CYC` in it rules the rest out. -/
theorem reachableStatesMeetTheInvariant : Obligations.ReachableStatesMeetTheInvariant := by
  intro s h
  obtain ⟨hw, hok, hfresh⟩ := reachable_inv h
  exact ⟨⟨hw, hok, hfresh⟩, not_halt_and_fault hok, hlt_not_beyond_ex1 hok⟩

end Sys2Proof.Machine
end

section
/-! The calls of one instruction (R89 to R91): what they come to under either phase policy, and how many there are. -/

namespace Sys2Proof.Machine

variable {c : Config} {s : State} {m : Opcode} {n : Nibble}

/-! ### The work of the three execute phases together -/

theorem ex1Work_setCyc (m : Opcode) (n : Nibble) (s : State) (k : Cyc) :
    ex1Work m n (s.setCyc k) = (ex1Work m n s).setCyc k := by
  cases m with
  | jc => rw [ex1Work_jc, ex1Work_jc]; rfl
  | jz => rw [ex1Work_jz, ex1Work_jz]; rfl
  | _ => rfl

theorem ex2Work_setCyc (m : Opcode) (n : Nibble) (s : State) (k : Cyc) :
    ex2Work m n (s.setCyc k) = (ex2Work m n s).setCyc k := by
  cases m <;> rfl

theorem ex3Work_setCyc (c : Config) (m : Opcode) (w : Byte) (s : State) (k : Cyc) :
    ex3Work c m w (s.setCyc k) = (ex3Work c m w s).setCyc k := by
  cases m <;> rfl

/-- What a defined instruction does after its Fetch, `CYC` apart: the work of Execute-1, -2 and -3 one after another, the
value handed on read in Execute-2 (R84 to R86). -/
def netWork (c : Config) (m : Opcode) (n : Nibble) (s : State) : State :=
  ex3Work c m (ex2Carry m n (ex1Work m n s)) (ex2Work m n (ex1Work m n s))

theorem netWork_setCyc (c : Config) (m : Opcode) (n : Nibble) (s : State) (k : Cyc) :
    netWork c m n (s.setCyc k) = (netWork c m n s).setCyc k := by
  unfold netWork
  rw [ex1Work_setCyc, ex2Work_setCyc, ex3Work_setCyc,
    ex2Carry_congr m ((ex1Work m n s).setCyc_memRead k n)]

theorem netWork_terminal (hm : m ≠ .hlt) (c : Config) (n : Nibble) (s : State) :
    (netWork c m n s).terminal = s.terminal := by
  rw [netWork, ex3Work_terminal, ex2Work_terminal, ex1Work_terminal hm]

theorem netWork_cyc (c : Config) (m : Opcode) (n : Nibble) (s : State) : (netWork c m n s).cyc = s.cyc :=
  (congrArg State.cyc (netWork_setCyc c m n s s.cyc) :)

/-! ### The instruction-level step (R91) -/

theorem instrStep_of_terminal (h : s.terminal = true) : instrStep c s = s := if_pos h

theorem instrStep_of_invalid {op : Nibble} (h : s.terminal = false)
    (hd : decodeUnder c.opc (s.memRead s.pc) = .invalid op n) :
    instrStep c s = s.latchPC.takeUndefinedOpcode s.pc := by
  unfold instrStep
  rw [if_neg (by rw [h]; decide)]
  dsimp only
  rw [hd]
  rfl

theorem instrStep_of_hlt (h : s.terminal = false) (hd : decodeUnder c.opc (s.memRead s.pc) = .instr .hlt n) :
    instrStep c s = (s.latchPC.fetchDefined .hlt n).setHalt := by
  unfold instrStep
  rw [if_neg (by rw [h]; decide)]
  dsimp only
  rw [hd]
  rfl

/-- The net effect of R91 is `PC` one on, and the work of the three phases. -/
theorem instrStep_of_instr (h : s.terminal = false) (hd : decodeUnder c.opc (s.memRead s.pc) = .instr m n)
    (hm : m ≠ .hlt) : instrStep c s = netWork c m n s.touch.incPc := by
  unfold instrStep
  rw [if_neg (by rw [h]; decide)]
  dsimp only
  rw [hd]
  cases m with
  | hlt => exact absurd rfl hm
  | jc => rw [netWork, ex1Work_jc]; rfl
  | jz => rw [netWork, ex1Work_jz]; rfl
  | _ => rfl

/-! ### The phase policy (R89, R90) -/

@[simp] theorem callsOf_hlt (pp : PhasePolicy) (n : Nibble) : callsOf pp (.instr .hlt n) = 3 := by
  cases pp <;> rfl

/-- An instruction other than HLT leaves after Execute-1, after Execute-2 or after Execute-3, and is counted so. -/
theorem callsOf_cases (pp : PhasePolicy) (hm : m ≠ .hlt) (n : Nibble) :
    (afterEx1 pp m n = .latchPC ∧ callsOf pp (.instr m n) = 3) ∨
    (afterEx1 pp m n = .ex2 m n ∧ (∀ w, afterEx2 pp m w = .latchPC) ∧ callsOf pp (.instr m n) = 4) ∨
    (afterEx1 pp m n = .ex2 m n ∧ (∀ w, afterEx2 pp m w = .ex3 m w) ∧ callsOf pp (.instr m n) = 5) := by
  cases pp with
  | uniform5 =>
    refine .inr (.inr ⟨rfl, fun _ => rfl, ?_⟩)
    cases m with
    | hlt => exact absurd rfl hm
    | _ => rfl
  | earlyExit =>
    cases m with
    | hlt => exact absurd rfl hm
    | nop | ldi | jmp | jc | jz | out => exact .inl ⟨rfl, rfl⟩
    | lda | sta => exact .inr (.inl ⟨rfl, fun _ => rfl, rfl⟩)
    | add | sub => exact .inr (.inr ⟨rfl, fun _ => rfl, rfl⟩)

theorem callsOf_uniform5 (hm : m ≠ .hlt) (n : Nibble) : callsOf .uniform5 (.instr m n) = 5 := by
  cases m with
  | hlt => exact absurd rfl hm
  | _ => rfl

/-- Where an instruction leaves after Execute-1, the later phases had no work (R90). -/
theorem netWork_of_afterEx1 {pp : PhasePolicy} (hleave : afterEx1 pp m n = .latchPC) (c : Config) (s : State) :
    netWork c m n s = ex1Work m n s := by
  cases pp with
  | uniform5 => cases hleave
  | earlyExit =>
    cases m with
    | nop | ldi | jmp | jc | jz | out => rfl
    | lda | add | sub | sta | hlt => cases hleave

/-- Where an instruction leaves after Execute-2, Execute-3 had no work (R90). -/
theorem netWork_of_afterEx2 {pp : PhasePolicy} {w : Byte} (hleave : afterEx2 pp m w = .latchPC) (c : Config) (n : Nibble)
    (s : State) : netWork c m n s = ex2Work m n (ex1Work m n s) := by
  cases pp with
  | uniform5 => cases hleave
  | earlyExit =>
    cases m with
    | lda | sta => rfl
    | nop | add | sub | ldi | jmp | jc | jz | out | hlt => cases hleave

/-! ### The state after each call -/

theorem advanceN_succ_last (c : Config) (k : Nat) (s : State) :
    advanceN c (k + 1) s = (advance c (advanceN c k s)).1 := advanceN_add k 1 s

section
variable (h : s.terminal = false) (hc : s.cyc = .latchPC)
include h hc

theorem advanceN_one : advanceN c 1 s = s.latchPC := by
  rw [advanceN, advanceN, advance_of_latchPC h hc]

theorem advanceN_two_invalid {op : Nibble} (hd : decodeUnder c.opc (s.memRead s.pc) = .invalid op n) :
    advanceN c 2 s = s.latchPC.takeUndefinedOpcode s.pc := by
  rw [advanceN_succ_last, advanceN_one h hc, advance_of_fetch_invalid (s := s.latchPC) h rfl hd]

variable (hd : decodeUnder c.opc (s.memRead s.pc) = .instr m n)
include hd

theorem advanceN_two : advanceN c 2 s = s.latchPC.fetchDefined m n := by
  rw [advanceN_succ_last, advanceN_one h hc, advance_of_fetch_instr (s := s.latchPC) h rfl hd]

theorem advanceN_three (hm : m ≠ .hlt) :
    advanceN c 3 s = (ex1Work m n (s.latchPC.fetchDefined m n)).setCyc (afterEx1 c.phasePolicy m n) := by
  rw [advanceN_succ_last, advanceN_two h hc hd, advance_of_ex1_work (s := s.latchPC.fetchDefined m n) h rfl hm]

theorem advanceN_four (hm : m ≠ .hlt) (hex1 : afterEx1 c.phasePolicy m n = .ex2 m n) :
    ∃ w, advanceN c 4 s
      = (ex2Work m n (ex1Work m n (s.latchPC.fetchDefined m n))).setCyc (afterEx2 c.phasePolicy m w) ∧
      w = ex2Carry m n (ex1Work m n (s.latchPC.fetchDefined m n)) := by
  refine ⟨_, ?_, rfl⟩
  have hrun : ((ex1Work m n (s.latchPC.fetchDefined m n)).setCyc (.ex2 m n)).terminal = false :=
    (ex1Work_terminal hm n _).trans h
  rw [advanceN_succ_last, advanceN_three h hc hd hm, hex1, advance_of_ex2_work hrun rfl, ex2Work_setCyc,
    ex2Carry_congr m (State.setCyc_memRead _ _ n)]
  rfl

theorem advanceN_five (hm : m ≠ .hlt) (hex1 : afterEx1 c.phasePolicy m n = .ex2 m n)
    (hex2 : ∀ w, afterEx2 c.phasePolicy m w = .ex3 m w) :
    advanceN c 5 s = (netWork c m n (s.latchPC.fetchDefined m n)).setCyc .latchPC := by
  obtain ⟨w, hfour, hw⟩ := advanceN_four h hc hd hm hex1
  have hrun : ((ex2Work m n (ex1Work m n (s.latchPC.fetchDefined m n))).setCyc (.ex3 m w)).terminal = false :=
    (ex2Work_terminal m n _).trans ((ex1Work_terminal hm n _).trans h)
  rw [advanceN_succ_last, hfour, hex2, advance_of_ex3_work hrun rfl, ex3Work_setCyc, hw]
  rfl

/-- Whenever an instruction leaves, the work of all three phases is done. -/
theorem advanceN_callsOf_instr (hm : m ≠ .hlt) :
    advanceN c (callsOf c.phasePolicy (.instr m n)) s
      = (netWork c m n (s.latchPC.fetchDefined m n)).setCyc .latchPC := by
  rcases callsOf_cases c.phasePolicy hm n with ⟨hleave, hcalls⟩ | ⟨hex1, hleave, hcalls⟩ | ⟨hex1, hex2, hcalls⟩
  · rw [hcalls, advanceN_three h hc hd hm, hleave, netWork_of_afterEx1 hleave]
  · obtain ⟨w, hfour, -⟩ := advanceN_four h hc hd hm hex1
    rw [hcalls, hfour, hleave, netWork_of_afterEx2 (hleave w)]
  · rw [hcalls, advanceN_five h hc hd hm hex1 hex2]

end

/-! ### The net effect (R91) -/

/-- Settles O53: the fault and the halt come at once, and any other instruction has done the work of its three phases, from
the state in which `PC` is one on and `CYC` is LatchPC again. -/
theorem callsComeToTheInstructionsNetEffect : Obligations.CallsComeToTheInstructionsNetEffect := by
  intro c s h hc
  cases hd : decodeUnder c.opc (s.memRead s.pc) with
  | invalid op n => rw [instrStep_of_invalid h hd, ← advanceN_two_invalid h hc hd]; rfl
  | instr m n =>
    by_cases hm : m = .hlt
    · subst hm
      rw [instrStep_of_hlt h hd, callsOf_hlt, advanceN_succ_last, advanceN_two h hc hd,
        advance_of_ex1_hlt (s := s.latchPC.fetchDefined .hlt n) h rfl]
    · calc advanceN c (callsOf c.phasePolicy (.instr m n)) s
          = (netWork c m n (s.touch.incPc.setCyc (.ex1 m n))).setCyc .latchPC := advanceN_callsOf_instr h hc hd hm
        _ = (netWork c m n s.touch.incPc).setCyc .latchPC := by rw [netWork_setCyc]; rfl
        _ = netWork c m n (s.touch.incPc.setCyc s.cyc) := by rw [hc, netWork_setCyc]
        _ = instrStep c s := (instrStep_of_instr h hd hm).symm

/-! ### The counts are exact (R89, R90) -/

theorem instrStep_terminal_iff (h : s.terminal = false) :
    (instrStep c s).terminal = true ↔
      (∃ op n, decodeUnder c.opc (s.memRead s.pc) = .invalid op n) ∨
      ∃ n, decodeUnder c.opc (s.memRead s.pc) = .instr .hlt n := by
  cases hd : decodeUnder c.opc (s.memRead s.pc) with
  | invalid op n => simp [instrStep_of_invalid h hd]
  | instr m n =>
    by_cases hm : m = .hlt
    · subst hm
      simp [instrStep_of_hlt h hd]
    · have hrun : s.touch.incPc.terminal = false := h
      simp [instrStep_of_instr h hd hm, netWork_terminal hm, hrun, hm]

/-- An instruction that does not end the machine leaves it between instructions. -/
theorem instrStep_cyc (h : s.terminal = false) (hc : s.cyc = .latchPC) (hrun : (instrStep c s).terminal = false) :
    (instrStep c s).cyc = .latchPC := by
  cases hd : decodeUnder c.opc (s.memRead s.pc) with
  | invalid op n =>
    rw [(instrStep_terminal_iff h).mpr (.inl ⟨op, n, hd⟩)] at hrun
    cases hrun
  | instr m n =>
    by_cases hm : m = .hlt
    · subst hm
      rw [(instrStep_terminal_iff h).mpr (.inr ⟨n, hd⟩)] at hrun
      cases hrun
    · rw [instrStep_of_instr h hd hm, netWork_cyc]
      exact hc

/-- The machine is in the middle of an instruction. -/
def State.InProgress (s : State) : Prop := s.cyc ≠ .latchPC ∧ s.terminal = false

theorem inProgress_of_lt_callsOf (h : s.terminal = false) (hc : s.cyc = .latchPC) {k : Nat} (hpos : 0 < k)
    (hlt : k < callsOf c.phasePolicy (decodeUnder c.opc (s.memRead s.pc))) : (advanceN c k s).InProgress := by
  have hone : (advanceN c 1 s).InProgress := by
    rw [advanceN_one h hc]
    exact ⟨nofun, h⟩
  cases hd : decodeUnder c.opc (s.memRead s.pc) with
  | invalid op n =>
    rw [hd, callsOf] at hlt
    interval_cases k
    exact hone
  | instr m n =>
    have htwo : (advanceN c 2 s).InProgress := by
      rw [advanceN_two h hc hd]
      exact ⟨nofun, h⟩
    by_cases hm : m = .hlt
    · subst hm
      rw [hd, callsOf_hlt] at hlt
      interval_cases k
      · exact hone
      · exact htwo
    have hthree (hex1 : afterEx1 c.phasePolicy m n = .ex2 m n) : (advanceN c 3 s).InProgress := by
      rw [advanceN_three h hc hd hm, hex1]
      exact ⟨nofun, (ex1Work_terminal hm n _).trans h⟩
    rw [hd] at hlt
    rcases callsOf_cases c.phasePolicy hm n with ⟨-, hcalls⟩ | ⟨hex1, -, hcalls⟩ | ⟨hex1, hex2, hcalls⟩
    · rw [hcalls] at hlt
      interval_cases k
      · exact hone
      · exact htwo
    · rw [hcalls] at hlt
      interval_cases k
      · exact hone
      · exact htwo
      · exact hthree hex1
    · have hfour : (advanceN c 4 s).InProgress := by
        obtain ⟨w, hfour, -⟩ := advanceN_four h hc hd hm hex1
        rw [hfour, hex2]
        exact ⟨nofun, (ex2Work_terminal m n _).trans ((ex1Work_terminal hm n _).trans h)⟩
      rw [hcalls] at hlt
      interval_cases k
      · exact hone
      · exact htwo
      · exact hthree hex1
      · exact hfour

/-- Settles O54: the calls before the last leave the machine in the middle of the instruction, and after the last it is where
the instruction-level step leaves it. -/
theorem callCountsAreExact : Obligations.CallCountsAreExact := by
  intro c s h hc
  dsimp only
  rw [callsComeToTheInstructionsNetEffect c s h hc]
  exact ⟨fun k hpos hlt => inProgress_of_lt_callsOf h hc hpos hlt, instrStep_terminal_iff h, instrStep_cyc h hc⟩

end Sys2Proof.Machine
end

section
/-! The instructions one by one (R105, R106, R111 to R113, R121 to R123, R130 to R133): each execute phase by `exec_ex1`,
`exec_ex2` and `exec_ex3`, the whole instruction by its net effect. -/

namespace Sys2Proof.Machine

variable {s t : State} {m : Opcode} {n : Nibble}

/-! ### Runs of the core -/

theorem core_run_eq_advanceN (k : Nat) (s : State) : Sys2Proof.core.run k s = .next (advanceN chosen k s) := by
  induction k generalizing s with
  | zero => rfl
  | succ k ih => rw [core_run_succ k (step_eq_advance s), ih, advanceN]

/-- A terminal machine that a run has come to is where every longer run ends. -/
theorem core_run_add_of_terminal {j : Nat} (hj : advanceN chosen j s = t) (ht : t.terminal = true) (k : Nat) :
    Sys2Proof.core.run (j + k) s = .next t := by
  rw [core_run_eq_advanceN, advanceN_add, hj, advanceN_of_terminal ht]

theorem decodeUnder_chosen_toInstr (hb : s.memRead s.pc = encode (m.toInstr n)) :
    decodeUnder chosen.opc (s.memRead s.pc) = .instr m n := by
  rw [hb, chosen_opc, decodeUnder_defaultOpc, decodeByte_encode, Opcode.toInstr_decoded]

/-- The five steps of an instruction other than HLT (R89, R91). -/
theorem core_run_five (m : Opcode) (n : Nibble) (hm : m ≠ .hlt) (h : s.terminal = false) (hc : s.cyc = .latchPC)
    (hb : s.memRead s.pc = encode (m.toInstr n)) :
    Sys2Proof.core.run 5 s = .next (netWork chosen m n s.touch.incPc) := by
  have hd := decodeUnder_chosen_toInstr hb
  have hnet := callsComeToTheInstructionsNetEffect chosen s h hc
  rw [hd, chosen_phasePolicy, callsOf_uniform5 hm] at hnet
  rw [core_run_eq_advanceN, hnet, instrStep_of_instr h hd hm]

/-! ### NOP, loads and stores -/

/-- Settles O23: NOP has no work in any phase. -/
theorem nopOnlyAdvancesThePC : Obligations.NopOnlyAdvancesThePC := fun n _ =>
  ⟨fun _ _ hc => ⟨n, exec_ex1 .nop n nofun hc⟩, fun _ _ hc => ⟨zext8 n, exec_ex2 .nop n hc⟩,
    fun _ _ hc => exec_ex3 .nop n hc, fun h hc hb => core_run_five .nop n nofun h hc hb⟩

/-- Settles O24: the cell is read and the accumulator written in Execute-2. -/
theorem ldaLoadsTheAccumulator : Obligations.LdaLoadsTheAccumulator := fun n s =>
  ⟨fun _ _ hc => exec_ex1 .lda n nofun hc, fun _ _ hc => ⟨s.memRead n, exec_ex2 .lda n hc⟩,
    fun _ _ hc => exec_ex3 .lda n hc, fun h hc hb => core_run_five .lda n nofun h hc hb⟩

/-- Settles O27: the store is STA's one work, and `State.memRead_memWrite` says what every cell reads after it. -/
theorem staStoresTheAccumulator : Obligations.StaStoresTheAccumulator := fun n s =>
  ⟨fun _ _ hc => exec_ex1 .sta n nofun hc, fun _ _ hc => ⟨zext8 n, exec_ex2 .sta n hc⟩,
    fun _ _ hc => exec_ex3 .sta n hc, fun hw h hc hb =>
      ⟨_, core_run_five .sta n nofun h hc hb, rfl, fun q => State.memRead_memWrite hw n q s.a⟩⟩

theorem zext8_eq_joinNibbles (n : Nibble) : zext8 n = joinNibbles 0 n := by
  revert n; decide

theorem ex1Work_ldi (n : Nibble) (s : State) : ex1Work .ldi n s = s.setA (joinNibbles 0 n) :=
  congrArg s.setA (zext8_eq_joinNibbles n)

/-- Settles O28: LDI's literal is the nibble joined to a zero nibble (`zext8_eq_joinNibbles`). -/
theorem ldiLoadsTheLiteral : Obligations.LdiLoadsTheLiteral := by
  refine fun n s => ⟨fun _ _ hc => ⟨n, ?ex1⟩, fun _ _ hc => ⟨zext8 n, exec_ex2 .ldi n hc⟩,
    fun _ _ hc => exec_ex3 .ldi n hc, fun h hc hb => ?run⟩
  case ex1 => exact (exec_ex1 .ldi n nofun hc).trans (by rw [ex1Work_ldi]; rfl)
  case run => exact (core_run_five .ldi n nofun h hc hb).trans (by rw [netWork, ex1Work_ldi]; rfl)

/-! ### Arithmetic -/

theorem writeAlu_aluAdd (s : State) (w : Byte) :
    s.writeAlu (aluAdd s.a w)
      = (s.setA (s.a + w)).setFlags (flagsOf (s.a + w) (decide (s.a.toNat + w.toNat ≥ 256))) := by
  rw [State.writeAlu, aluAdd_fst, aluAdd_snd]

theorem writeAlu_aluSub_borrow (s : State) (w : Byte) :
    s.writeAlu (aluSub .borrow s.a w)
      = (s.setA (s.a - w)).setFlags (flagsOf (s.a - w) (decide (s.a < w))) := by
  rw [State.writeAlu, aluSub_fst, aluSub_snd, subWide_borrow]

/-- Settles O25: the ALU's sum is written back in Execute-3 (`writeAlu_aluAdd`). -/
theorem addAddsTheCellToTheAccumulator : Obligations.AddAddsTheCellToTheAccumulator := by
  refine fun n s => ⟨fun _ _ hc => exec_ex1 .add n nofun hc, fun _ _ hc => exec_ex2 .add n hc, fun _ w hc => ?ex3,
    fun h hc hb => ?run⟩
  case ex3 => exact (exec_ex3 .add n hc).trans (by rw [ex3Work, writeAlu_aluAdd]; rfl)
  case run =>
    rw [core_run_five .add n nofun h hc hb]
    exact congrArg _ (writeAlu_aluAdd s.touch.incPc (s.memRead n))

/-- Settles O26: the ALU's difference is written back in Execute-3, Carry read as a borrow (`writeAlu_aluSub_borrow`).
-/
theorem subSubtractsTheCellFromTheAccumulator : Obligations.SubSubtractsTheCellFromTheAccumulator := by
  refine fun n s => ⟨fun _ _ hc => exec_ex1 .sub n nofun hc, fun _ _ hc => exec_ex2 .sub n hc, fun _ w hc => ?ex3,
    fun h hc hb => ?run⟩
  case ex3 => exact (exec_ex3 .sub n hc).trans (by rw [ex3Work, chosen_subCarry, writeAlu_aluSub_borrow]; rfl)
  case run =>
    rw [core_run_five .sub n nofun h hc hb]
    exact congrArg _ (writeAlu_aluSub_borrow s.touch.incPc (s.memRead n))

/-! ### Jumps and OUT -/

/-- Settles O29: the jump overwrites, in Execute-1, the `PC` that Fetch had advanced. -/
theorem jmpJumps : Obligations.JmpJumps := fun n _ =>
  ⟨fun _ _ hc => ⟨n, exec_ex1 .jmp n nofun hc⟩, fun _ _ hc => ⟨zext8 n, exec_ex2 .jmp n hc⟩,
    fun _ _ hc => exec_ex3 .jmp n hc, fun h hc hb => core_run_five .jmp n nofun h hc hb⟩

/-- Settles O30: JC is one write of `PC`, taken or not (`ex1Work_jc_eq`). -/
theorem jcJumpsExactlyOnCarry : Obligations.JcJumpsExactlyOnCarry := by
  refine fun n s => ⟨fun _ _ hc => ⟨n, ?ex1⟩, fun _ _ hc => ⟨zext8 n, exec_ex2 .jc n hc⟩,
    fun _ _ hc => exec_ex3 .jc n hc, fun h hc hb => ?run⟩
  case ex1 => exact (exec_ex1 .jc n nofun hc).trans (by rw [ex1Work_jc_eq]; rfl)
  case run => exact (core_run_five .jc n nofun h hc hb).trans (by rw [netWork, ex1Work_jc_eq]; rfl)

/-- Settles O31: JZ is one write of `PC`, taken or not (`ex1Work_jz_eq`). -/
theorem jzJumpsExactlyOnZero : Obligations.JzJumpsExactlyOnZero := by
  refine fun n s => ⟨fun _ _ hc => ⟨n, ?ex1⟩, fun _ _ hc => ⟨zext8 n, exec_ex2 .jz n hc⟩,
    fun _ _ hc => exec_ex3 .jz n hc, fun h hc hb => ?run⟩
  case ex1 => exact (exec_ex1 .jz n nofun hc).trans (by rw [ex1Work_jz_eq]; rfl)
  case run => exact (core_run_five .jz n nofun h hc hb).trans (by rw [netWork, ex1Work_jz_eq]; rfl)

/-- Settles O32: the accumulator is emitted in Execute-1, and no later phase has work. -/
theorem outEmitsTheAccumulator : Obligations.OutEmitsTheAccumulator := fun n _ =>
  ⟨fun _ _ hc => ⟨n, exec_ex1 .out n nofun hc⟩, fun _ _ hc => ⟨zext8 n, exec_ex2 .out n hc⟩,
    fun _ _ hc => exec_ex3 .out n hc, fun h hc hb => core_run_five .out n nofun h hc hb⟩

/-! ### HLT and the reserved rows -/

/-- Settles O33: the third call halts, and a halted machine stays. -/
theorem hltHaltsOnTheThirdStep : Obligations.HltHaltsOnTheThirdStep := by
  refine fun n s => ⟨fun _ _ hc => exec_ex1_hlt n hc, fun h hc hb k => ?_⟩
  have hd : decodeUnder chosen.opc (s.memRead s.pc) = .instr .hlt n := decodeUnder_chosen_toInstr hb
  have hthree : advanceN chosen 3 s = (s.latchPC.fetchDefined .hlt n).setHalt := by
    have hnet := callsComeToTheInstructionsNetEffect chosen s h hc
    rwa [hd, callsOf_hlt, instrStep_of_hlt h hd] at hnet
  exact core_run_add_of_terminal hthree rfl k

/-- The meaning and the decoding of a reserved row. -/
theorem reserved_row {i : Instr} {name : String}
    (hi : (i, name) ∈ [(Instr.undef9 n, "UNDEF_9"), (.undefA n, "UNDEF_A"), (.undefB n, "UNDEF_B"),
      (.undefC n, "UNDEF_C"), (.undefD n, "UNDEF_D")]) :
    (∀ s, exec i s = runReserved name s) ∧ ∃ op, i.decoded = .invalid op n := by
  simp only [List.mem_cons, List.not_mem_nil, or_false, Prod.mk.injEq] at hi
  rcases hi with ⟨rfl, rfl⟩ | ⟨rfl, rfl⟩ | ⟨rfl, rfl⟩ | ⟨rfl, rfl⟩ | ⟨rfl, rfl⟩
  all_goals exact ⟨fun _ => rfl, _, rfl⟩

theorem runReserved_ex1 (mn : String) {k : Nibble} (hc : s.cyc = .ex1 m k) :
    runReserved mn s = .refused (.noExecutePhase mn) := by
  unfold runReserved; rw [hc]

theorem runReserved_ex2 (mn : String) {k : Nibble} (hc : s.cyc = .ex2 m k) :
    runReserved mn s = .refused (.noExecutePhase mn) := by
  unfold runReserved; rw [hc]

theorem runReserved_ex3 (mn : String) {w : Byte} (hc : s.cyc = .ex3 m w) :
    runReserved mn s = .refused (.noExecutePhase mn) := by
  unfold runReserved; rw [hc]

/-- Settles O34: a reserved row's meaning is `runReserved`, and the second call takes the fault, after which the machine
stays. -/
theorem reservedRowsTakeTheFaultAtFetch : Obligations.ReservedRowsTakeTheFaultAtFetch := by
  intro i name n s hi
  obtain ⟨hexec, op, hdec⟩ := reserved_row hi
  refine ⟨fun p hc => ?fetch, fun m k hc => ?ex12, fun m w hc => ?ex3, fun h hc hb k => ?run⟩
  case fetch => exact (hexec s).trans (runReserved_fetch name hc)
  case ex12 =>
    rcases hc with hc | hc
    · exact (hexec s).trans (runReserved_ex1 name hc)
    · exact (hexec s).trans (runReserved_ex2 name hc)
  case ex3 => exact (hexec s).trans (runReserved_ex3 name hc)
  case run =>
    have hd : decodeUnder chosen.opc (s.memRead s.pc) = .invalid op n := by
      rw [hb, chosen_opc, decodeUnder_defaultOpc, decodeByte_encode, hdec]
    rw [core_run_add_of_terminal (advanceN_two_invalid h hc hd) (State.takeUndefinedOpcode_terminal s.pc s.latchPC),
      ← hb]
    rfl

/-! ### Ignored operands (R66) -/

theorem Cyc.sameButPayload_refl (k : Cyc) : k.sameButPayload k = true := by
  cases k <;> simp [Cyc.sameButPayload]

/-- An instruction whose Execute-1 and Execute-2 do the same work with every operand makes the same transition with every
operand, payload apart. -/
theorem exec_ignores_operand {n' : Nibble} (hex1 : ex1Work m n s = ex1Work m n' s)
    (hex2 : ex2Work m n s = ex2Work m n' s) (h : exec (m.toInstr n) s = .next t) :
    ∃ y, y.sameButPayload t.cyc = true ∧ exec (m.toInstr n') s = .next { t with cyc := y } := by
  rw [exec_toInstr] at h
  cases h
  rw [exec_toInstr]
  cases hc : s.cyc with
  | latchPC =>
    rw [transition_latchPC _ _ _ hc, transition_latchPC _ _ _ hc]
    exact ⟨_, Cyc.sameButPayload_refl _, rfl⟩
  | fetch p =>
    rw [transition_fetch _ _ _ hc, transition_fetch _ _ _ hc]
    exact ⟨.ex1 m n', beq_self_eq_true m, rfl⟩
  | ex1 m' k =>
    rw [transition_ex1 _ _ _ hc, transition_ex1 _ _ _ hc, hex1]
    by_cases hm : m = .hlt
    · rw [if_pos hm, if_pos hm]
      exact ⟨_, Cyc.sameButPayload_refl _, rfl⟩
    · rw [if_neg hm, if_neg hm]
      exact ⟨.ex2 m n', beq_self_eq_true m, rfl⟩
  | ex2 m' k =>
    rw [transition_ex2 _ _ _ hc, transition_ex2 _ _ _ hc, hex2]
    exact ⟨.ex3 m (ex2Carry m n' s), beq_self_eq_true m, rfl⟩
  | ex3 m' w =>
    rw [transition_ex3 _ _ _ hc, transition_ex3 _ _ _ hc]
    exact ⟨_, Cyc.sameButPayload_refl _, rfl⟩

/-- Settles O35: the three instructions' work names no operand. -/
theorem ignoredOperandsChangeNothing : Obligations.IgnoredOperandsChangeNothing := by
  refine ⟨fun n => ⟨decodeByte_encode (.nop n), decodeByte_encode (.out n), decodeByte_encode (.hlt n)⟩,
    fun n n' s t => ⟨?nop, ?out, ?hlt⟩⟩
  case nop => exact exec_ignores_operand (m := .nop) rfl rfl
  case out => exact exec_ignores_operand (m := .out) rfl rfl
  case hlt => exact exec_ignores_operand (m := .hlt) rfl rfl

end Sys2Proof.Machine
end

section
/-! Runs (R92, R93, R169): which terminal states a machine comes to, by instructions, by calls and under the driver. -/

namespace Sys2Proof.Machine

variable {c : Config} {s t : State}

/-! ### Instructions and calls come to the same terminal states (R92) -/

theorem callsOf_pos (pp : PhasePolicy) (d : Decoded) : 0 < callsOf pp d := by
  cases d with
  | invalid op n => exact Nat.two_pos
  | instr m n =>
    by_cases hm : m = .hlt
    · subst hm
      rw [callsOf_hlt]
      decide
    · rcases callsOf_cases pp hm n with ⟨-, hcalls⟩ | ⟨-, -, hcalls⟩ | ⟨-, -, hcalls⟩ <;> omega

theorem instrStepN_of_terminal (h : s.terminal = true) (k : Nat) : instrStepN c k s = s := by
  induction k with
  | zero => rfl
  | succ k ih => rw [instrStepN, instrStep_of_terminal h, ih]

/-- However many instructions are taken, some number of calls comes to the same state. -/
theorem exists_advanceN_eq_instrStepN (h : s.terminal = false) (hc : s.cyc = .latchPC) (k : Nat) :
    ∃ j, advanceN c j s = instrStepN c k s := by
  induction k generalizing s with
  | zero => exact ⟨0, rfl⟩
  | succ k ih =>
    have hnet := callsComeToTheInstructionsNetEffect c s h hc
    rw [instrStepN]
    cases ht : (instrStep c s).terminal with
    | true => exact ⟨_, by rw [instrStepN_of_terminal ht, hnet]⟩
    | false =>
      obtain ⟨j, hj⟩ := ih ht (instrStep_cyc h hc ht)
      exact ⟨_, by rw [← hj, ← hnet, ← advanceN_add]⟩

/-- Where calls come to a terminal state, so do instructions: the calls are taken one instruction's at a time, and none ends
the machine in the middle of one. -/
theorem exists_instrStepN_eq_of_advanceN (ht : t.terminal = true) (k : Nat) (h : s.terminal = false)
    (hc : s.cyc = .latchPC) (hk : advanceN c k s = t) : ∃ j, instrStepN c j s = t := by
  induction k using Nat.strong_induction_on generalizing s with
  | _ k ih =>
    have hnet := callsComeToTheInstructionsNetEffect c s h hc
    rcases Nat.lt_or_ge k (callsOf c.phasePolicy (decodeUnder c.opc (s.memRead s.pc))) with hlt | hge
    · have hrun : t.terminal = false := by
        rcases Nat.eq_zero_or_pos k with rfl | hpos
        · cases hk; exact h
        · obtain ⟨-, hrun⟩ := inProgress_of_lt_callsOf h hc hpos hlt
          rwa [hk] at hrun
      rw [hrun] at ht
      cases ht
    · obtain ⟨r, rfl⟩ := Nat.exists_eq_add_of_le hge
      rw [advanceN_add, hnet] at hk
      cases hstep : (instrStep c s).terminal with
      | true => exact ⟨1, by rw [← hk, advanceN_of_terminal hstep]; rfl⟩
      | false =>
        have hpos := callsOf_pos c.phasePolicy (decodeUnder c.opc (s.memRead s.pc))
        obtain ⟨j, hj⟩ := ih r (by omega) hstep (instrStep_cyc h hc hstep) hk
        exact ⟨j + 1, hj⟩

theorem instrStepN_reaches_iff (h : s.terminal = false) (hc : s.cyc = .latchPC) (ht : t.terminal = true) :
    (∃ k, instrStepN c k s = t) ↔ ∃ k, advanceN c k s = t := by
  constructor
  · rintro ⟨k, rfl⟩
    exact exists_advanceN_eq_instrStepN h hc k
  · rintro ⟨k, hk⟩
    exact exists_instrStepN_eq_of_advanceN ht k h hc hk

/-- Settles O55: a halted machine is terminal (`instrStepN_reaches_iff`). -/
theorem interpreterAndSimulatorHaltAlike : Obligations.InterpreterAndSimulatorHaltAlike := fun _ _ _ h hc ht =>
  instrStepN_reaches_iff h hc (terminal_of_halt ht)

/-! ### The driver (R93) -/

/-- How a run ends whose last call left this state. -/
def State.runEnd (s : State) : RunEnd :=
  match s.result with
  | .halted => .halted
  | .fault f => .fault f
  | .running => .outOfFuel

theorem runEnd_of_fault {r : FaultRecord} (hf : s.fault = some r) : s.runEnd = .fault (.undefinedOpcode r) := by
  rw [State.runEnd, result_of_fault hf]

theorem runEnd_of_halt (hf : s.fault = none) (hh : s.halt = true) : s.runEnd = .halted := by
  rw [State.runEnd, result_of_halt hf hh]

theorem terminal_cases (h : s.terminal = true) : (∃ r, s.fault = some r) ∨ (s.fault = none ∧ s.halt = true) := by
  cases hf : s.fault with
  | some r => exact .inl ⟨r, rfl⟩
  | none => exact .inr ⟨rfl, by simpa [State.terminal, hf] using h⟩

theorem advance_eq (c : Config) (s : State) : advance c s = ((advance c s).1, (advance c s).1.result) :=
  Prod.ext rfl (advance_result c s)

theorem run_succ_of_not_terminal (h : (advance c s).1.terminal = false) (k : Nat) :
    run c (k + 1) s = run c k (advance c s).1 := by
  rw [run, advance_eq, result_of_not_terminal h]

/-- The driver stops after the first call that leaves a terminal machine. -/
theorem run_succ_of_terminal (h : (advance c s).1.terminal = true) (k : Nat) :
    run c (k + 1) s = ((advance c s).1, (advance c s).1.runEnd) := by
  rcases terminal_cases h with ⟨r, hf⟩ | ⟨hf, hh⟩
  · rw [run, advance_eq, result_of_fault hf, runEnd_of_fault hf]
  · rw [run, advance_eq, result_of_halt hf hh, runEnd_of_halt hf hh]

/-- A run that ends is so many calls, and they leave a terminal machine. -/
theorem advanceN_of_run {k : Nat} {e : RunEnd} (h : run c k s = (t, e)) (he : e ≠ .outOfFuel) :
    (∃ j, advanceN c j s = t) ∧ t.terminal = true ∧ e = t.runEnd := by
  induction k generalizing s with
  | zero =>
    cases h
    exact absurd rfl he
  | succ k ih =>
    cases hterm : (advance c s).1.terminal with
    | true =>
      rw [run_succ_of_terminal hterm] at h
      cases h
      exact ⟨⟨1, rfl⟩, hterm, rfl⟩
    | false =>
      rw [run_succ_of_not_terminal hterm] at h
      obtain ⟨⟨j, hj⟩, hend⟩ := ih h
      exact ⟨⟨j + 1, hj⟩, hend⟩

/-- Where calls come to a terminal machine, a run with enough fuel ends there. -/
theorem exists_run_of_advanceN {j : Nat} (hj : advanceN c j s = t) (ht : t.terminal = true) :
    ∃ k, run c k s = (t, t.runEnd) := by
  induction j generalizing s with
  | zero =>
    obtain rfl : s = t := hj
    have hsame : (advance c s).1 = s := advance_of_terminal ht
    exact ⟨1, by rw [run_succ_of_terminal (by rwa [hsame]), hsame]⟩
  | succ j ih =>
    cases hterm : (advance c s).1.terminal with
    | true =>
      rw [advanceN, advanceN_of_terminal hterm] at hj
      exact ⟨1, by rw [run_succ_of_terminal hterm, hj]⟩
    | false =>
      obtain ⟨k, hk⟩ := ih hj
      exact ⟨k + 1, by rw [run_succ_of_not_terminal hterm, hk]⟩

/-- The net effect of an instruction reads no phase policy (R91), so neither do the states that instructions come to. -/
theorem instrStepN_phasePolicy (pp : PhasePolicy) (k : Nat) (s : State) :
    instrStepN { c with phasePolicy := pp } k s = instrStepN c k s := by
  induction k generalizing s with
  | zero => rfl
  | succ k ih => exact ih (instrStep c s)

/-- Settles O56: calls under either policy come to the terminal states that instructions come to. -/
theorem phasePolicyDoesNotChangeHowRunsEnd : Obligations.PhasePolicyDoesNotChangeHowRunsEnd := by
  intro c pp s t e k h hc hrun he
  obtain ⟨hcalls, ht, rfl⟩ := advanceN_of_run hrun he
  obtain ⟨i, hi⟩ := (instrStepN_reaches_iff h hc ht).mpr hcalls
  rw [← instrStepN_phasePolicy pp] at hi
  obtain ⟨j, hj⟩ := (instrStepN_reaches_iff h hc ht).mp ⟨i, hi⟩
  exact exists_run_of_advanceN hj ht

/-! ### Good ends (R169) -/

theorem advanceN_keeps_inv (hinv : s.Inv) (k : Nat) : (advanceN chosen k s).Inv := by
  induction k generalizing s with
  | zero => exact hinv
  | succ k ih => exact ih (stepKeepsTheInvariant _ _ hinv (step_eq_advance s))

/-- Only HLT has halted a machine that meets the invariant, and `CYC` still says so (R132). -/
theorem cyc_of_halt (hok : s.cycOk = true) (hh : s.halt = true) : ∃ n, s.cyc = .ex1 .hlt n := by
  unfold State.cycOk at hok
  cases hc : s.cyc with
  | ex1 m n =>
    simp only [hc, hh, Bool.and_eq_true, Bool.not_true, Bool.false_or, beq_iff_eq] at hok
    obtain ⟨-, rfl⟩ := hok
    exact ⟨n, rfl⟩
  | _ => simp [hc, hh] at hok

/-- Settles O58: which latch ended the run says how it ended. -/
theorem runsEndWellExactlyWhenTheyHalt : Obligations.RunsEndWellExactlyWhenTheyHalt := by
  refine fun s t k hinv => ⟨fun hrun => ?halted, fun f hrun => ?fault⟩
  case halted =>
    obtain ⟨⟨j, rfl⟩, ht, he⟩ := advanceN_of_run hrun nofun
    obtain ⟨-, hok, -⟩ := advanceN_keeps_inv hinv j
    rcases terminal_cases ht with ⟨r, hf⟩ | ⟨hf, hh⟩
    · cases he.trans (runEnd_of_fault hf)
    · exact ⟨by rw [State.endedWell, hf, hh]; rfl, cyc_of_halt hok hh⟩
  case fault =>
    obtain ⟨-, ht, he⟩ := advanceN_of_run hrun nofun
    rcases terminal_cases ht with ⟨r, hf⟩ | ⟨hf, hh⟩
    · cases he.trans (runEnd_of_fault hf)
      exact ⟨by rw [State.endedWell, hf]; exact Bool.and_false _, r, rfl, hf⟩
    · cases he.trans (runEnd_of_halt hf hh)

end Sys2Proof.Machine
end

section
/-! The outcomes of an addition and of a subtraction, row by row (R103, R104). -/

namespace Sys2Proof.Machine

variable {a b : Byte}

/-! ### The three readings of a subtraction's Carry (R103) -/

theorem subWide_notBorrow (a b : Byte) : subWide .notBorrow a b = decide (b ≤ a) := by
  have ha := a.isLt
  have hb := b.isLt
  simp only [subWide, decide_eq_decide, BitVec.le_def]
  omega

theorem subWide_negAdd (a b : Byte) : subWide .negAdd a b = decide (b ≠ 0 ∧ b ≤ a) := by
  have ha := a.isLt
  have hb := b.isLt
  have hzero : b ≠ 0 ↔ b.toNat ≠ 0 := not_congr BitVec.toNat_inj.symm
  simp only [subWide, decide_eq_decide, BitVec.le_def, hzero]
  omega

/-- Settles O20: each reading of the 9-bit value is a comparison of the operands. -/
theorem subtractionReadings : Obligations.SubtractionReadings := by
  refine ⟨rfl, fun a b => ⟨?borrow, ?notBorrow, ?negAdd, fun sc => aluSub_fst sc a b⟩⟩
  case borrow => rw [aluSub_snd, subWide_borrow]
  case notBorrow => rw [aluSub_snd, subWide_notBorrow]
  case negAdd => rw [aluSub_snd, subWide_negAdd]

/-! ### Addition -/

theorem aluAdd_eq (a b : Byte) : aluAdd a b = (a + b, flagsOf (a + b) (decide (a.toNat + b.toNat ≥ 256))) :=
  Prod.ext (aluAdd_fst a b) (aluAdd_snd a b)

/-- A result is zero when the exact sum is 0 or 256. -/
theorem add_eq_zero_iff : a + b = 0 ↔ a.toNat + b.toNat = 0 ∨ a.toNat + b.toNat = 256 := by
  have ha := a.isLt
  have hb := b.isLt
  rw [← BitVec.toNat_inj, BitVec.toNat_add, show (0 : Byte).toNat = 0 from rfl]
  omega

theorem add_eq_ofNat (a b : Byte) : a + b = BitVec.ofNat 8 (a.toNat + b.toNat) := by
  rw [BitVec.ofNat_add, BitVec.ofNat_toNat, BitVec.ofNat_toNat, BitVec.setWidth_eq, BitVec.setWidth_eq]

/-- Settles O21: the result is the sum modulo 256, and the flags are those of its row. -/
theorem addOutcomes : Obligations.AddOutcomes := by
  refine fun a b => ⟨fun hsum => ?zero, fun hsum => ⟨?carry, ?range⟩, fun hpos hsum => ?none⟩
  case zero => rw [aluAdd_eq, add_eq_zero_iff.mpr hsum, flagsOf_zero]
  case carry =>
    have hne : a + b ≠ 0 := fun h => by have := add_eq_zero_iff.mp h; omega
    have hwrap : a + b = BitVec.ofNat 8 (a.toNat + b.toNat - 256) := by
      apply BitVec.eq_of_toNat_eq
      rw [BitVec.toNat_add, BitVec.toNat_ofNat]
      omega
    rw [aluAdd_eq, flagsOf_of_ne_zero hne, decide_eq_true (by omega), hwrap]
    rfl
  case range =>
    have ha := a.isLt
    have hb := b.isLt
    exact ⟨by omega, by omega⟩
  case none =>
    have hne : a + b ≠ 0 := fun h => by have := add_eq_zero_iff.mp h; omega
    rw [aluAdd_eq, flagsOf_of_ne_zero hne, decide_eq_false (by omega), add_eq_ofNat]
    rfl

/-! ### Subtraction -/

theorem toNat_sub_of_gt (h : b.toNat < a.toNat) : (a - b).toNat = a.toNat - b.toNat :=
  BitVec.toNat_sub_of_le (BitVec.le_def.mpr h.le)

theorem toNat_sub_of_lt (h : a.toNat < b.toNat) : (a - b).toNat = a.toNat + 256 - b.toNat := by
  have hb := b.isLt
  rw [BitVec.toNat_sub]
  omega

theorem aluSub_snd_of_ne (h : a ≠ b) (sc : SubCarry) : (aluSub sc a b).2 = if subWide sc a b then .carry else .none := by
  rw [aluSub_snd, flagsOf_of_ne_zero fun hzero => h (by simpa using congrArg (· + b) hzero)]

theorem aluSub_snd_eq_carry {sc : SubCarry} (h : a ≠ b) (hwide : subWide sc a b = true) : (aluSub sc a b).2 = .carry := by
  rw [aluSub_snd_of_ne h, if_pos hwide]

theorem aluSub_snd_eq_none {sc : SubCarry} (h : a ≠ b) (hwide : subWide sc a b = false) : (aluSub sc a b).2 = .none := by
  rw [aluSub_snd_of_ne h, hwide]
  rfl

theorem borrow_eq_none_of_gt (h : b < a) : (aluSub .borrow a b).2 = .none :=
  aluSub_snd_eq_none (BitVec.ne_of_lt h).symm ((subWide_borrow a b).trans (decide_eq_false (BitVec.lt_asymm h)))

theorem notBorrow_eq_carry_of_gt (h : b < a) : (aluSub .notBorrow a b).2 = .carry :=
  aluSub_snd_eq_carry (BitVec.ne_of_lt h).symm ((subWide_notBorrow a b).trans (decide_eq_true (BitVec.le_of_lt h)))

/-- Settles O22: different bytes leave a difference that is not zero, and each reading of Carry is decided by its row. -/
theorem subOutcomes : Obligations.SubOutcomes := by
  refine fun a b => ⟨?equal, fun hgt hb => ?greater, fun hgt hb => ?zeroSubtrahend, fun hlt => ?less⟩
  case equal =>
    rintro rfl sc
    refine Prod.ext ((aluSub_fst sc a a).trans (BitVec.sub_self a)) ?_
    rw [aluSub_snd, BitVec.sub_self]
    rfl
  case greater =>
    have hlt : b < a := hgt
    refine ⟨fun sc => by rw [aluSub_fst, toNat_sub_of_gt hgt], borrow_eq_none_of_gt hlt, notBorrow_eq_carry_of_gt hlt,
      aluSub_snd_eq_carry (BitVec.ne_of_lt hlt).symm ?_⟩
    exact (subWide_negAdd a b).trans (decide_eq_true ⟨hb, BitVec.le_of_lt hlt⟩)
  case zeroSubtrahend =>
    have hlt : b < a := hgt
    refine ⟨fun sc => ?_, borrow_eq_none_of_gt hlt, notBorrow_eq_carry_of_gt hlt,
      aluSub_snd_eq_none (BitVec.ne_of_lt hlt).symm ?_⟩
    · rw [aluSub_fst, hb]
      exact BitVec.sub_zero a
    · exact (subWide_negAdd a b).trans (decide_eq_false fun ⟨hne, _⟩ => hne hb)
  case less =>
    have hne : a ≠ b := BitVec.ne_of_lt hlt
    have hnle : ¬ b ≤ a := BitVec.not_le.mpr hlt
    refine ⟨fun sc => by rw [aluSub_fst, toNat_sub_of_lt hlt], aluSub_snd_eq_carry hne ?_, aluSub_snd_eq_none hne ?_,
      aluSub_snd_eq_none hne ?_⟩
    · exact (subWide_borrow a b).trans (decide_eq_true hlt)
    · exact (subWide_notBorrow a b).trans (decide_eq_false hnle)
    · exact (subWide_negAdd a b).trans (decide_eq_false fun ⟨_, hle⟩ => hnle hle)

end Sys2Proof.Machine
end
